-- ==== Sys2Proof/Word.lean ====
section
/-! DEFINITION. The width of a cell.

The unit of storage and of encoding is the memory cell, which holds one signed integer (00_scope.md R9,
20_memory.md R45: "A model represents each cell as an integer of Cell, not as bytes").  So a cell's value is an
`Int`, and arithmetic on cells is exact integer arithmetic; the range of a cell and the wrap into it stand in
Machine/Cells.lean, where a repair may mend them. -/

namespace Sys2Proof

/-- `CELL_WIDTH` (R6): a number of bits, or unbounded (W = infinity). -/
inductive CellWidth where
  /-- Two's-complement range of `w` bits (R9). -/
  | bits (w : Nat)
  /-- W = infinity: "every cell holds an unbounded integer". -/
  | unbounded
  deriving DecidableEq, Repr

end Sys2Proof
end

