-- ==== Sys2Proof/Config.lean ====
section
/-! DEFINITION. The implementation parameters of the block (00_scope.md R5 to R8) and its one free value.

"The model takes the parameters below as arguments": they stand together in `Params`, every machine carries
its own (State.params), and no step or host operation changes them. -/

namespace Sys2Proof

/-- `OVERFLOW_POLICY` (R7). -/
inductive OverflowPolicy where
  /-- A result outside Cell raises ArithmeticOverflow. -/
  | fault
  /-- A result outside Cell is wrapped into it. -/
  | wrap
  deriving DecidableEq, Repr

/-- The parameters of one configuration of the block. -/
structure Params where
  /-- `MEM_CELLS`, written N (R5). -/
  memCells : Nat
  /-- `CELL_WIDTH`, written W (R6). -/
  cellWidth : CellWidth
  /-- `OVERFLOW_POLICY` (R7). -/
  overflowPolicy : OverflowPolicy
  /-- `CYCLE_BUDGET` (R8): `none` is NONE, `some b` is SOME b. -/
  cycleBudget : Option Nat
  deriving DecidableEq, Repr

/-- The reference configuration: N = 256, W = 64, FAULT, NONE (R5 to R8). -/
def Params.reference : Params where
  memCells := 256
  cellWidth := .bits 64
  overflowPolicy := .fault
  cycleBudget := none

/-- FREE VALUE (log entry 5): what a cell holds after a load that did not fit.  "The contents of M after such a
failed load are unspecified, and a model must treat them as any value" (70_reset_and_hazards.md R144).  The first
argument counts the failed loads, the second is the cell's address; nothing constrains the answer, which the model
wraps into Cell. -/
opaque Config.failedLoadCell : Nat → Nat → Int

end Sys2Proof
end

