-- ==== Sys2Proof/Machine/Cells.lean ====
section
/-! DEFINITION. The range of a cell and the wrap into it (00_scope.md R9). -/

namespace Sys2Proof.Machine

/-- `in_cell(v)` of R9: -2^(W-1) ≤ v ≤ 2^(W-1) - 1 for finite W, always true for W = infinity. -/
def inCell (w : CellWidth) (v : Int) : Bool :=
  match w with
  | .bits n => decide (-((2 ^ (n - 1) : Nat) : Int) ≤ v ∧ v ≤ ((2 ^ (n - 1) : Nat) : Int) - 1)
  | .unbounded => true

/-- `wrap_W(v)` of R9: ((v + 2^(W-1)) mod 2^W) - 2^(W-1), the remainder in [0, 2^W).  With W = infinity every
value is in Cell and nothing is wrapped (R100). -/
def wrapCell (w : CellWidth) (v : Int) : Int :=
  match w with
  | .bits n => (v + ((2 ^ (n - 1) : Nat) : Int)) % ((2 ^ n : Nat) : Int) - ((2 ^ (n - 1) : Nat) : Int)
  | .unbounded => v

end Sys2Proof.Machine
end

