-- ==== Sys2Proof/Machine/State.lean ====
section
/-! DEFINITION. The state of the block (10_state.md R20), its fault records (60_exceptions.md R120), and the
reasons a step or a host operation answers no next state. -/

namespace Sys2Proof.Machine

/-- The status register `st` (R26). -/
inductive Status where
  /-- Steps may happen. -/
  | running
  /-- A step found Halt at pc. -/
  | halted
  /-- A fault was raised. -/
  | faulted
  deriving DecidableEq, Repr

/-- The fault kinds of R120. -/
inductive FaultKind where
  | invalidOpcode
  | outOfRangeAccess
  | cycleWhenHalted
  | arithmeticOverflow
  | timeoutError
  deriving DecidableEq, Repr

/-- A pair (kind, info) of the fault record `err` (R27), with each kind's payload (R120). -/
inductive FaultRecord where
  /-- The opcode value and the address of its cell; raised by Decode. -/
  | invalidOpcode (opcode : Int) (addr : Nat)
  /-- The address outside 0..N-1; raised by MemRead and MemWrite. -/
  | outOfRangeAccess (addr : Int)
  /-- The pc at which cycle found the machine halted. -/
  | cycleWhenHalted (addr : Nat)
  /-- The address of the Add or Multiply whose exact result is outside Cell. -/
  | arithmeticOverflow (addr : Nat)
  /-- The budget that a run used up. -/
  | timeoutError (budget : Nat)
  deriving DecidableEq, Repr

/-- The memory array M (R21): the cells that hold something other than 0, addresses strictly rising
(`Memory.wf`).  An unlisted address reads as 0, the value clear leaves (R142). -/
abbrev Memory := List (Nat × Int)

/-- The architectural state (R20), with two fields that are the model's: `params`, the parameters the machine was
built with, which nothing changes (log entry 1), and `freeDraws` (log entry 5). -/
structure State where
  /-- The parameters N, W, OVERFLOW_POLICY and CYCLE_BUDGET of this machine (R5 to R8). -/
  params : Params
  /-- M, the memory array (R21). -/
  mem : Memory
  /-- The program counter, a natural number (R23, R25). -/
  pc : Nat
  /-- The status register (R26). -/
  st : Status
  /-- The fault record (R27); `none` is NONE. -/
  err : Option FaultRecord
  /-- The Add and Multiply steps of the current run (R28). -/
  runCount : Nat
  /-- How many failed loads have drawn a free memory (the model's own counter). -/
  freeDraws : Nat
  deriving DecidableEq, Repr

/-- Why the core takes no step.  A fault of the SPEC is no outcome of this type: it is taken, as a next state
with st = FAULTED (R122). -/
inductive Fault where
  /-- `step` in a HALTED machine: "the core has no step" (40_execution_cycle.md R82).  Safe: nothing runs. -/
  | coreHalted (pc : Nat)
  /-- `step` in a FAULTED machine: "the core has no step" (R82).  Safe: nothing runs. -/
  | coreFaulted (err : Option FaultRecord)
  deriving DecidableEq, Repr

/-- What the model gives no meaning. -/
inductive Refusal where
  /-- An instruction with no meaning yet; no arm of exec answers so. Safe. -/
  | notModelled (mnemonic : String)
  /-- `hostInit` in a HALTED or FAULTED machine (70_reset_and_hazards.md R150). Safe. -/
  | initWhenStopped (st : Status)
  /-- `hostLoad` or `hostInit` given a value outside Cell (R143, decision D26). Safe. -/
  | valueNotInCell (v : Int)
  deriving DecidableEq, Repr

/-- The state after reset and at power-on, for any parameters (R32, R147): every cell 0, pc = 0, RUNNING, no
fault, run_count = 0. -/
def State.resetWith (p : Params) : State where
  params := p
  mem := []
  pc := 0
  st := .running
  err := none
  runCount := 0
  freeDraws := 0

/-- The state after reset in the reference configuration. -/
def State.reset : State := State.resetWith Params.reference

end Sys2Proof.Machine
end

