-- ==== Sys2Proof/Machine/Flags.lean ====
section
/-! DEFINITION. What the ALU makes of an exact result (41_arithmetic.md R100).  "The ALU sets no flag, and there
are no flags" (R100, 10_state.md R31): the range check is all there is. -/

namespace Sys2Proof.Machine

/-- `AluResult(r, pc)` of R100. -/
def aluResult (p : Params) (r : Int) (pc : Nat) : Except FaultRecord Int :=
  if inCell p.cellWidth r then .ok r
  else
    match p.overflowPolicy with
    | .fault => .error (.arithmeticOverflow pc)
    | .wrap => .ok (wrapCell p.cellWidth r)

end Sys2Proof.Machine
end

