-- ==== Sys2Proof/Machine/Ops.lean ====
section
/-! DEFINITION. The named operations over the state: the memory array, the two access primitives (20_memory.md
R41, R42), raising a fault (60_exceptions.md R122), the counters, and the pieces of reset (70_reset_and_hazards.md
R140 to R142). -/

namespace Sys2Proof.Machine

/-- The cell at `a`: its entry, or 0 where none is listed. -/
def Memory.get (m : Memory) (a : Nat) : Int :=
  match m with
  | [] => 0
  | (k, v) :: rest => if k = a then v else Memory.get rest a

/-- The memory with cell `a` set to `v`, in canonical form: no entry for 0, addresses in order. -/
def Memory.put (m : Memory) (a : Nat) (v : Int) : Memory :=
  match m with
  | [] => if v = 0 then [] else [(a, v)]
  | (k, x) :: rest =>
    if a < k then (if v = 0 then (k, x) :: rest else (a, v) :: (k, x) :: rest)
    else if a = k then (if v = 0 then rest else (a, v) :: rest)
    else (k, x) :: Memory.put rest a v

/-- The canonical form: addresses strictly rising, no entry equal to what an unlisted address reads as. -/
def Memory.wf (m : Memory) : Bool :=
  match m with
  | [] => true
  | (k, v) :: rest => decide (v ≠ 0) && rest.all (fun e => decide (k < e.1)) && Memory.wf rest

/-- Every entry is a cell of the array and holds a value of Cell (R21). -/
def Memory.within (p : Params) (m : Memory) : Bool :=
  m.all fun e => decide (e.1 < p.memCells) && inCell p.cellWidth e.2

/-- `in_range(a)` of R9. -/
def inRange (s : State) (a : Int) : Bool :=
  decide (0 ≤ a ∧ a < (s.params.memCells : Int))

/-- `MemRead(a, 1)` (R41). -/
def memRead (a : Int) (s : State) : Except FaultRecord Int :=
  if inRange s a then .ok (Memory.get s.mem a.toNat) else .error (.outOfRangeAccess a)

/-- `MemWrite(a, 1, v)` (R42). -/
def memWrite (a : Int) (v : Int) (s : State) : Except FaultRecord State :=
  if inRange s a then .ok { s with mem := Memory.put s.mem a.toNat v } else .error (.outOfRangeAccess a)

/-- `raise F(info)`: st and err, and no more (R122). -/
def raise (f : FaultRecord) (s : State) : State :=
  { s with st := .faulted, err := some f }

/-- What a step leaves when its checks answer a state or a fault: a fault is raised in the state the step began
in, so it is precise (R123). -/
def settle (r : Except FaultRecord State) (s : State) : State :=
  match r with
  | .ok t => t
  | .error f => raise f s

/-- The kind of a fault record. -/
def FaultRecord.kind : FaultRecord → FaultKind
  | .invalidOpcode _ _ => .invalidOpcode
  | .outOfRangeAccess _ => .outOfRangeAccess
  | .cycleWhenHalted _ => .cycleWhenHalted
  | .arithmeticOverflow _ => .arithmeticOverflow
  | .timeoutError _ => .timeoutError

/-- The code of a fault kind (R120). -/
def FaultKind.code : FaultKind → Nat
  | .invalidOpcode => 1
  | .outOfRangeAccess => 2
  | .cycleWhenHalted => 3
  | .arithmeticOverflow => 4
  | .timeoutError => 5

/-- pc ← pc + 4, the advance of an Add or a Multiply (R86). -/
def advancePc (s : State) : State :=
  { s with pc := s.pc + 4 }

/-- Memory.clear() (R142): every cell 0, the capacity as it was. -/
def clearMemory (s : State) : State :=
  { s with mem := [] }

/-- ExecutionUnit.reset() (R141): pc ← 0 and nothing else. -/
def resetCounter (s : State) : State :=
  { s with pc := 0 }

/-- Machine.reset() (R140). -/
def freshStart (s : State) : State :=
  { resetCounter (clearMemory s) with st := .running, err := none, runCount := 0 }

/-- Memory.load(p) from cell `i` on (R143): a MemWrite for each value, the remainder not cleared. -/
def loadCells (i : Nat) (program : List Int) (s : State) : Except FaultRecord State :=
  match program with
  | [] => .ok s
  | v :: rest =>
    match memWrite (i : Int) v s with
    | .ok t => loadCells (i + 1) rest t
    | .error f => .error f

/-- The memory a failed load leaves: in every cell any value of Cell (R144, log entry 5). -/
def freeMemory (p : Params) (draw : Nat) : Memory :=
  ((List.range p.memCells).map fun a =>
    (a, wrapCell p.cellWidth (Config.failedLoadCell draw a))).filter fun e => decide (e.2 ≠ 0)

/-- The state with its memory forgotten. -/
def forgetMemory (s : State) : State :=
  { s with mem := freeMemory s.params s.freeDraws, freeDraws := s.freeDraws + 1 }

/-- The writes of Machine.init (R145): in list order, stopping with a raise at the first bad address, earlier
pairs kept. -/
def applyOverrides (overrides : List (Int × Int)) (s : State) : State :=
  match overrides with
  | [] => s
  | (a, v) :: rest =>
    match memWrite a v s with
    | .ok t => applyOverrides rest t
    | .error f => raise f s

/-- The cells put at `a`, `a + 1`, … so far as the array goes, each wrapped into Cell; used only to place a word
for the next step (log entry 4). -/
def placeCells (a : Nat) (cells : List Int) (s : State) : State :=
  match cells with
  | [] => s
  | v :: rest =>
    match memWrite (a : Int) (wrapCell s.params.cellWidth v) s with
    | .ok t => placeCells (a + 1) rest t
    | .error _ => s

end Sys2Proof.Machine
end

