-- ==== Sys2Proof/Syntax.lean ====
section
/-! DEFINITION. The instructions (30_encoding.md R62, R63, R66) and the lines of a listing (R70). -/

namespace Sys2Proof

/-- One constructor per row of spec/opcode_table.json.  Each operand is the whole value of its operand cell,
a direct absolute address that decode does not check (R64, R68), so it may be any integer. -/
inductive Instr where
  /-- Add, opcode 1: `add src1, src2, dst`. -/
  | add (src1 src2 dst : Int)
  /-- Multiply, opcode 2: `mul src1, src2, dst`. -/
  | mul (src1 src2 dst : Int)
  /-- Halt, opcode 99: no operands. -/
  | halt
  deriving DecidableEq, Repr

/-- One line of a listing: an instruction, or `.data v`, one raw cell (R70). -/
inductive Line where
  | instr (i : Instr)
  | data (v : Int)
  deriving DecidableEq, Repr

end Sys2Proof
end

