-- ==== Sys2Proof/Machine/Operands.lean ====
section
/-! DEFINITION. The one operand form of the block, the direct absolute address (30_encoding.md R64), and the
shared execution of the two instructions that use it (41_arithmetic.md R101, R102). -/

namespace Sys2Proof.Machine

/-- Reading the two source cells, in order (R101, R102). -/
def readSources (a b : Int) (s : State) : Except FaultRecord (Int × Int) :=
  match memRead a s with
  | .error f => .error f
  | .ok x =>
    match memRead b s with
    | .error f => .error f
    | .ok y => .ok (x, y)

/-- `Execute` of R101 and R102 for an exact operation `op`: read both sources, compute, check the result, check
and write the destination, advance pc.  Each check comes before the one write. -/
def arithmetic (op : Int → Int → Int) (a b c : Int) (s : State) : Except FaultRecord State :=
  match readSources a b s with
  | .error f => .error f
  | .ok (x, y) =>
    match aluResult s.params (op x y) s.pc with
    | .error f => .error f
    | .ok v =>
      match memWrite c v s with
      | .error f => .error f
      | .ok t => .ok (advancePc t)

end Sys2Proof.Machine
end

