-- ==== Sys2Proof/Machine/Arithmetic.lean ====
section
/-! DEFINITION. The arithmetic family: Add and Multiply (41_arithmetic.md R101, R102). -/

namespace Sys2Proof.Machine

/-- Add, opcode 1 (R101): the exact sum of the two source cells into the destination cell. -/
def execAdd (a b c : Int) (s : State) : Host.Outcome State Fault Refusal :=
  .next (settle (arithmetic (fun x y => x + y) a b c s) s)

/-- Multiply, opcode 2 (R102): the exact product of the two source cells into the destination cell. -/
def execMul (a b c : Int) (s : State) : Host.Outcome State Fault Refusal :=
  .next (settle (arithmetic (fun x y => x * y) a b c s) s)

end Sys2Proof.Machine
end

