-- ==== Sys2Proof/Machine/Control.lean ====
section
/-! DEFINITION. The control family: Halt (42_halt.md R110). -/

namespace Sys2Proof.Machine

/-- Halt, opcode 99 (R110): st ← HALTED; pc stays and no cell is written (conflict C1, decision D9). -/
def execHalt (s : State) : Host.Outcome State Fault Refusal :=
  .next { s with st := .halted }

end Sys2Proof.Machine
end

