-- ==== Sys2Proof/Decode.lean ====
section
/-! DEFINITION. The decoder (30_encoding.md R66), the encoder (R62, R63), the listing's assembler (R70), and the
reading of an opcode-table word.  The unit of encoding is the cell, and the opcode is the whole value of the first
cell (R60, R61). -/

namespace Sys2Proof

/-- Why a sequence of cells is no instruction. -/
inductive DecodeError where
  /-- The cell this many places after the opcode cell is needed and does not exist. -/
  | missingCell (offset : Nat)
  /-- The opcode cell holds a value other than 1, 2 and 99 (R67). -/
  | invalidOpcode (value : Int)
  deriving DecidableEq, Repr

/-- `Decode(pc)` of R66 over any reader of the cell `k` places after the opcode cell.  The opcode is read and
checked before any operand cell; the operand cells are read in the order +1, +2, +3; Halt and an illegal opcode
read no further cell (decision D23).  `illegal` says how an illegal opcode is reported (R67). -/
def decodeWith {ε : Type} (read : Nat → Except ε Int) (illegal : Int → ε) : Except ε Instr :=
  match read 0 with
  | .error e => .error e
  | .ok op =>
    if op = 1 ∨ op = 2 then
      match read 1 with
      | .error e => .error e
      | .ok a =>
        match read 2 with
        | .error e => .error e
        | .ok b =>
          match read 3 with
          | .error e => .error e
          | .ok c => .ok (if op = 1 then .add a b c else .mul a b c)
    else if op = 99 then .ok .halt
    else .error (illegal op)

/-- The cell at an offset of a list of cells. -/
def cellAt (cells : List Int) (offset : Nat) : Except DecodeError Int :=
  match cells[offset]? with
  | some v => .ok v
  | none => .error (.missingCell offset)

/-- The decoder on a list of cells, the opcode cell first; cells after the instruction do not matter. -/
def decode (cells : List Int) : Except DecodeError Instr :=
  decodeWith (cellAt cells) .invalidOpcode

/-- The opcode of each instruction (R66). -/
def Instr.opcode : Instr → Int
  | .add _ _ _ => 1
  | .mul _ _ _ => 2
  | .halt => 99

/-- The width of each instruction in cells (R60, R65). -/
def Instr.width : Instr → Nat
  | .add _ _ _ => 4
  | .mul _ _ _ => 4
  | .halt => 1

/-- The cells of an instruction: Format A is op, src1, src2, dst (R62); Format H is op alone (R63). -/
def encode : Instr → List Int
  | .add a b c => [1, a, b, c]
  | .mul a b c => [2, a, b, c]
  | .halt => [99]

/-- The cells one line of a listing emits (R70). -/
def Line.cells : Line → List Int
  | .instr i => encode i
  | .data v => [v]

/-- The cells a listing emits, in order (R70). -/
def assemble (listing : List Line) : List Int :=
  listing.flatMap Line.cells

/-- The longest instruction, in cells. -/
def longestWidth : Nat := 4

/-- How many bits of an opcode-table word number one cell: the reference width W = 64 (log entry 4). -/
def tableCellBits : Nat := 64

/-- The cell number `k` of a table word: bits 64k+63 to 64k read as a two's-complement integer, the bits above
`nbits` zero. -/
def tableCell (nbits w k : Nat) : Int :=
  let x := w % 2 ^ nbits / 2 ^ (tableCellBits * k) % 2 ^ tableCellBits
  if x < 2 ^ (tableCellBits - 1) then (x : Int) else (x : Int) - ((2 ^ tableCellBits : Nat) : Int)

/-- The cells of a table word, up to the longest instruction. -/
def tableCells (nbits w : Nat) : List Int :=
  (List.range longestWidth).map (tableCell nbits w)

/-- The instruction the decoder reads from an opcode-table word: bit 0 is the least significant bit of the opcode
cell, and a later cell's bits count on from it. -/
def decodeTableWord (nbits w : Nat) : Option Instr :=
  match decode (tableCells nbits w) with
  | .ok i => some i
  | .error _ => none

end Sys2Proof
end

