-- ==== Sys2Proof/Machine/Fetch.lean ====
section
/-! DEFINITION. Fetching and decoding the instruction at pc (30_encoding.md R66), and what a step does around the
execution of it: the cycle budget and the count of cycles (40_execution_cycle.md R81, R85). -/

namespace Sys2Proof.Machine

/-- `Decode(pc)` of R66, over MemRead. -/
def decodeAt (s : State) : Except FaultRecord Instr :=
  decodeWith (fun k => memRead ((s.pc + k : Nat) : Int) s) (fun op => .invalidOpcode op s.pc)

/-- Whether an instruction is counted as a cycle: Add and Multiply are, Halt is not (R84, R85). -/
def isCycle : Instr → Bool
  | .add _ _ _ => true
  | .mul _ _ _ => true
  | .halt => false

/-- The budget check before an Add or a Multiply is executed under run (R85). -/
def budgetFault (underRun : Bool) (i : Instr) (s : State) : Option FaultRecord :=
  match s.params.cycleBudget with
  | none => none
  | some b => if underRun && isCycle i && decide (s.runCount = b) then some (.timeoutError b) else none

/-- `if under_run: run_count ← run_count + 1`, the last line of R81, which a step that halted or raised does not
reach. -/
def countCycle (underRun : Bool) (t : State) : State :=
  if underRun && decide (t.st = .running) then { t with runCount := t.runCount + 1 } else t

/-- The state whose next step runs the cells of a table word: the cells at pc, st = RUNNING (log entry 4). -/
def placeTableWord (s : State) (nbits w : Nat) : State :=
  placeCells s.pc (tableCells nbits w) { s with st := .running, err := none }

end Sys2Proof.Machine
end

