-- ==== Sys2Proof/Machine/Step.lean ====
section
/-! DEFINITION. The step of the core (40_execution_cycle.md R81). -/

namespace Sys2Proof.Machine

/-- `Step(under_run)` of R81, and no step when st is HALTED or FAULTED (R82). -/
def stepUnder (underRun : Bool) (s : State) : Host.Outcome State Fault Refusal :=
  match s.st with
  | .halted => .fault (.coreHalted s.pc)
  | .faulted => .fault (.coreFaulted s.err)
  | .running =>
    match decodeAt s with
    | .error f => .next (raise f s)
    | .ok i =>
      match budgetFault underRun i s with
      | some f => .next (raise f s)
      | none =>
        match exec i s with
        | .next t => .next (countCycle underRun t)
        | .fault r => .fault r
        | .refused r => .refused r

/-- One step of the machine: the step that run takes, `Step(TRUE)` (R83).  The host's single step is `hostCycle`. -/
def step (s : State) : Host.Outcome State Fault Refusal :=
  stepUnder true s

/-- The state with the instruction of an opcode-table word where `step` fetches next (log entry 4). -/
def State.withFetchWord (s : State) (nbits w : Nat) : State :=
  placeTableWord s nbits w

end Sys2Proof.Machine
end

