-- ==== Sys2Proof/Machine/HostOps.lean ====
section
/-! DEFINITION. The operations through which the host drives the block: reset, load, init, run, cycle, halted and
peek (40_execution_cycle.md R80, R83, R84; 70_reset_and_hazards.md R140 to R150).  Each is atomic with respect to
steps (R149). -/

namespace Sys2Proof.Machine

/-- What run and cycle return to the host: OK, or ERROR err (R83, R84). -/
inductive HostResult where
  | ok
  | error (err : Option FaultRecord)
  deriving DecidableEq, Repr

/-- Machine.reset() (R140), in any st. -/
def hostReset (s : State) : State :=
  freshStart s

/-- Machine.load(p) (R144), in any st.  A value outside Cell is refused at the boundary (R143, decision D26).  A
program longer than N leaves the machine FAULTED and its memory any value (decision D14). -/
def hostLoad (program : List Int) (s : State) : Host.Outcome State Fault Refusal :=
  match program.find? (fun v => !inCell s.params.cellWidth v) with
  | some v => .refused (.valueNotInCell v)
  | none =>
    match loadCells 0 program (freshStart s) with
    | .ok t => .next t
    | .error f => .next (raise f (forgetMemory (freshStart s)))

/-- Machine.init(overrides) (R145), refused unless st = RUNNING (R150). -/
def hostInit (overrides : List (Int × Int)) (s : State) : Host.Outcome State Fault Refusal :=
  match s.st with
  | .halted => .refused (.initWhenStopped .halted)
  | .faulted => .refused (.initWhenStopped .faulted)
  | .running =>
    match overrides.find? (fun o => !inCell s.params.cellWidth o.2) with
    | some o => .refused (.valueNotInCell o.2)
    | none => .next (applyOverrides overrides s)

/-- Machine.peek(a) (R146), in any st: an error is returned and not raised. -/
def hostPeek (a : Int) (s : State) : Except FaultRecord Int :=
  memRead a s

/-- Halted() (R80): a query of M and pc; a decode failure is returned and not raised. -/
def hostHalted (s : State) : Except FaultRecord Bool :=
  match decodeAt s with
  | .error f => .error f
  | .ok .halt => .ok true
  | .ok (.add _ _ _) => .ok false
  | .ok (.mul _ _ _) => .ok false

/-- The state after one step; where the core takes none, the state as it was. -/
def stepResult (underRun : Bool) (s : State) : State :=
  match stepUnder underRun s with
  | .next t => t
  | .fault _ => s
  | .refused _ => s

/-- What run or cycle returns for the state it ends in. -/
def resultOf (t : State) : HostResult :=
  match t.st with
  | .faulted => .error t.err
  | .halted => .ok
  | .running => .ok

/-- A raise outside a step, and the error the host sees. -/
def failWith (f : FaultRecord) (s : State) : HostResult × State :=
  (.error (some f), raise f s)

/-- Cycle() (R84). -/
def hostCycle (s : State) : HostResult × State :=
  match s.st with
  | .faulted => (.error s.err, s)
  | .halted => failWith (.cycleWhenHalted s.pc) s
  | .running =>
    match decodeAt s with
    | .error f => failWith f s
    | .ok .halt => failWith (.cycleWhenHalted s.pc) s
    | .ok (.add _ _ _) => (resultOf (stepResult false s), stepResult false s)
    | .ok (.mul _ _ _) => (resultOf (stepResult false s), stepResult false s)

/-- `while st == RUNNING: Step(TRUE)`, for at most `fuel` steps; `none` while the machine is still running after
them, so that a run that never ends is one that answers `none` for every fuel (R83, R87, R133). -/
def runLoop (fuel : Nat) (s : State) : Option State :=
  match s.st with
  | .halted => some s
  | .faulted => some s
  | .running =>
    match fuel with
    | 0 => none
    | k + 1 => runLoop k (stepResult true s)

/-- Run() (R83), observed for at most `fuel` steps. -/
def hostRun (fuel : Nat) (s : State) : Option (HostResult × State) :=
  match s.st with
  | .faulted => some (.error s.err, s)
  | .halted => some (.ok, { s with runCount := 0 })
  | .running =>
    match runLoop fuel { s with runCount := 0 } with
    | none => none
    | some t => some (resultOf t, t)

end Sys2Proof.Machine
end

