-- ==== Sys2Proof/Machine/HostModel.lean ====
section
/-! DEFINITION. The usage protocols of the surrounding software (70_reset_and_hazards.md R151, R152): "normative
for a host model and for the test vectors, not for the core". -/

namespace Sys2Proof.Machine

/-- What a host that loads, injects, runs and peeks learns. -/
inductive ProtocolResult where
  /-- The run ended HALTED and the result cell holds this. -/
  | value (v : Int)
  /-- The run, or the peek, answered an error. -/
  | error (err : Option FaultRecord)
  /-- The block gave an operation no meaning. -/
  | refused (r : Refusal)
  /-- The run was not observed to end. -/
  | unfinished
  deriving DecidableEq, Repr

/-- Steps enough for any run from pc = 0: each cycle moves pc by 4 within 0..N (10_state.md R24). -/
def runFuel (s : State) : Nat :=
  s.params.memCells / 4 + 1

/-- Run, then peek(0). -/
def runAndPeek (s : State) : ProtocolResult :=
  match hostRun (runFuel s) s with
  | none => .unfinished
  | some (.error e, _) => .error e
  | some (.ok, t) =>
    match hostPeek 0 t with
    | .ok v => .value v
    | .error f => .error (some f)

/-- Load, init, run, peek(0): the boot order of R148. -/
def loadInitRun (program : List Int) (overrides : List (Int × Int)) (s : State) : ProtocolResult :=
  match hostLoad program s with
  | .fault _ => .unfinished
  | .refused r => .refused r
  | .next t =>
    match hostInit overrides t with
    | .fault _ => .unfinished
    | .refused r => .refused r
    | .next u => runAndPeek u

/-- The part-one protocol (R151): the parameters (1, 12) and (2, 2). -/
def partOne (program : List Int) (s : State) : ProtocolResult :=
  loadInitRun program [(1, 12), (2, 2)] s

/-- What the search returns (R152); NotFound is explicit (60_exceptions.md R134). -/
inductive SearchResult where
  | found (answer : Nat)
  | notFound
  | error (err : Option FaultRecord)
  | refused (r : Refusal)
  | unfinished
  deriving DecidableEq, Repr

/-- One candidate pair: reset, reload, noun and verb at addresses 1 and 2, run, peek(0) (R152). -/
def candidate (program : List Int) (noun verb : Nat) (s : State) : ProtocolResult :=
  loadInitRun program [(1, (noun : Int)), (2, (verb : Int))] (hostReset s)

/-- The search over a list of pairs, in order: the first that gives the target; a faulting candidate ends it
(decision D22). -/
def searchPairs (pairs : List (Nat × Nat)) (program : List Int) (target : Int) (s : State) :
    SearchResult :=
  match pairs with
  | [] => .notFound
  | (noun, verb) :: rest =>
    match candidate program noun verb s with
    | .value v => if v = target then .found (100 * noun + verb) else searchPairs rest program target s
    | .error e => .error e
    | .refused r => .refused r
    | .unfinished => .unfinished

/-- The pairs in ascending lexicographic order, both from 0 to `bound - 1`. -/
def searchGrid (bound : Nat) : List (Nat × Nat) :=
  (List.range bound).flatMap fun noun => (List.range bound).map fun verb => (noun, verb)

/-- Search(program, target) over 0..99 by 0..99 (R152). -/
def search (program : List Int) (target : Int) (s : State) : SearchResult :=
  searchPairs (searchGrid 100) program target s

end Sys2Proof.Machine
end

