-- ==== Sys2Proof/Machine/Interface.lean ====
section
/-! DEFINITION. The memory interface as the core sees it (20_memory.md R54), and the requests one step issues
(R55). -/

namespace Sys2Proof.Machine

/-- One request of the core (R54). -/
inductive Request where
  | read (a : Int)
  | write (a : Int) (v : Int)
  deriving DecidableEq, Repr

/-- The memory's answer to one request (R54). -/
inductive Answer where
  | value (v : Int)
  | done
  | outOfRange
  deriving DecidableEq, Repr

/-- The address a request names. -/
def Request.addr : Request → Int
  | .read a => a
  | .write a _ => a

/-- The memory's answer and the state after it: a read is MemRead, a write is MemWrite (R54). -/
def serve (r : Request) (s : State) : Answer × State :=
  match r with
  | .read a =>
    match memRead a s with
    | .ok v => (.value v, s)
    | .error _ => (.outOfRange, s)
  | .write a v =>
    match memWrite a v s with
    | .ok t => (.done, t)
    | .error _ => (.outOfRange, s)

/-- Reads issued one after the other, stopping at the first OUT_OF_RANGE answer. -/
def issueReads (addrs : List Int) (s : State) : List Request :=
  match addrs with
  | [] => []
  | a :: rest => if inRange s a then .read a :: issueReads rest s else [.read a]

/-- The requests of Decode: pc, and for opcodes 1 and 2 also pc+1, pc+2 and pc+3 (R55). -/
def decodeRequests (s : State) : List Request :=
  match memRead (s.pc : Int) s with
  | .error _ => [.read s.pc]
  | .ok op =>
    if op = 1 ∨ op = 2 then issueReads [(s.pc : Int), (s.pc : Int) + 1, (s.pc : Int) + 2, (s.pc : Int) + 3] s
    else [.read s.pc]

/-- The requests of Execute: read a, read b, write c; no write when the result overflows (R55). -/
def executeRequests (op : Int → Int → Int) (a b c : Int) (s : State) : List Request :=
  match readSources a b s with
  | .error _ => issueReads [a, b] s
  | .ok (x, y) =>
    match aluResult s.params (op x y) s.pc with
    | .error _ => [.read a, .read b]
    | .ok v => [.read a, .read b, .write c v]

/-- The requests of Execute for each instruction. -/
def instrRequests (i : Instr) (s : State) : List Request :=
  match i with
  | .add a b c => executeRequests (fun x y => x + y) a b c s
  | .mul a b c => executeRequests (fun x y => x * y) a b c s
  | .halt => []

/-- The requests of one step, in order (R55): Decode's, then Execute's unless Decode failed or the budget is used
up; none in a machine that has no step. -/
def stepRequests (underRun : Bool) (s : State) : List Request :=
  match s.st with
  | .halted => []
  | .faulted => []
  | .running =>
    match decodeAt s with
    | .error _ => decodeRequests s
    | .ok i =>
      match budgetFault underRun i s with
      | some _ => decodeRequests s
      | none => decodeRequests s ++ instrRequests i s

end Sys2Proof.Machine
end

