-- ==== Sys2Proof/WellFormed.lean ====
section
/-! DEFINITION. Which parameters, instructions, programs and override lists are well formed. -/

namespace Sys2Proof

/-- A finite cell has at least one bit, so that R9's 2^(W-1) is an integer (log entry 3). -/
def CellWidth.wf : CellWidth → Bool
  | .bits w => decide (1 ≤ w)
  | .unbounded => true

/-- "A model takes N as a parameter with N >= 1" (R5), and the width is one R9 gives a range for. -/
def Params.wf (p : Params) : Bool :=
  decide (1 ≤ p.memCells) && p.cellWidth.wf

/-- An operand field holds a value of Cell (R64, R68); nothing else about it is checked before use. -/
def Instr.wf (w : CellWidth) : Instr → Bool
  | .add a b c => Machine.inCell w a && Machine.inCell w b && Machine.inCell w c
  | .mul a b c => Machine.inCell w a && Machine.inCell w b && Machine.inCell w c
  | .halt => true

/-- A program the block takes: every value in Cell (R143), and no longer than the memory (R5, R144). -/
def programWf (p : Params) (program : List Int) : Bool :=
  program.all (Machine.inCell p.cellWidth) && decide (program.length ≤ p.memCells)

/-- An override list the block takes: every value in Cell (R145).  An address is checked when it is written. -/
def overridesWf (p : Params) (overrides : List (Int × Int)) : Bool :=
  overrides.all fun o => Machine.inCell p.cellWidth o.2

end Sys2Proof
end

