-- ==== Sys2Proof/Safety.lean ====
section
/-! DEFINITION. What counts as a good state, the reachable states, and the three ends of a run
(10_state.md R24, R33; 40_execution_cycle.md R87). -/

namespace Sys2Proof.Machine

/-- The memory array is in canonical form and within N and Cell (R21). -/
abbrev State.MemoryOk (s : State) : Prop :=
  Memory.wf s.mem = true ∧ Memory.within s.params s.mem = true

/-- pc is a multiple of 4 and at most N (R24). -/
abbrev State.PcOk (s : State) : Prop :=
  s.pc % 4 = 0 ∧ s.pc ≤ s.params.memCells

/-- "If st = HALTED, then M[pc] == 99 and pc is in range" (R33). -/
abbrev State.HaltOk (s : State) : Prop :=
  s.st = .halted → s.pc < s.params.memCells ∧ Memory.get s.mem s.pc = 99

/-- "err != NONE exactly when st = FAULTED" (R27, R33). -/
abbrev State.ErrOk (s : State) : Prop :=
  s.st = .faulted ↔ s.err ≠ none

/-- The invariant of the machine. -/
abbrev State.Inv (s : State) : Prop :=
  s.params.wf = true ∧ s.MemoryOk ∧ s.PcOk ∧ s.HaltOk ∧ s.ErrOk

/-- The first check that fails in a step of a running machine, in the order of 60_exceptions.md R124: opcode fetch,
opcode legality, operand cells, budget, first source, second source, result, destination.  It is written from that
list over the cells alone, apart from the step, so that the two can be compared. -/
def firstFailingCheck (underRun : Bool) (s : State) : Option FaultRecord :=
  let n : Int := s.params.memCells
  let cell := fun k => Memory.get s.mem (s.pc + k)
  let value := fun a : Int => Memory.get s.mem a.toNat
  let result := if cell 0 = 1 then value (cell 1) + value (cell 2) else value (cell 1) * value (cell 2)
  if s.params.memCells ≤ s.pc then some (.outOfRangeAccess s.pc)
  else if cell 0 = 99 then none
  else if cell 0 ≠ 1 ∧ cell 0 ≠ 2 then some (.invalidOpcode (cell 0) s.pc)
  else if s.params.memCells ≤ s.pc + 1 then some (.outOfRangeAccess (s.pc + 1))
  else if s.params.memCells ≤ s.pc + 2 then some (.outOfRangeAccess (s.pc + 2))
  else if s.params.memCells ≤ s.pc + 3 then some (.outOfRangeAccess (s.pc + 3))
  else if underRun = true ∧ s.params.cycleBudget = some s.runCount then some (.timeoutError s.runCount)
  else if cell 1 < 0 ∨ n ≤ cell 1 then some (.outOfRangeAccess (cell 1))
  else if cell 2 < 0 ∨ n ≤ cell 2 then some (.outOfRangeAccess (cell 2))
  else if inCell s.params.cellWidth result = false ∧ s.params.overflowPolicy = .fault then
    some (.arithmeticOverflow s.pc)
  else if cell 3 < 0 ∨ n ≤ cell 3 then some (.outOfRangeAccess (cell 3))
  else none

/-- The states that power-on, steps and host operations reach, for parameters `p`. -/
inductive Reachable (p : Params) : State → Prop where
  | powerOn : Reachable p (State.resetWith p)
  | byStep {s t : State} : Reachable p s → step s = .next t → Reachable p t
  | byReset {s : State} : Reachable p s → Reachable p (hostReset s)
  | byLoad {s t : State} {program : List Int} :
      Reachable p s → hostLoad program s = .next t → Reachable p t
  | byInit {s t : State} {overrides : List (Int × Int)} :
      Reachable p s → hostInit overrides s = .next t → Reachable p t
  | byCycle {s : State} : Reachable p s → Reachable p (hostCycle s).2
  | byRun {s t : State} {fuel : Nat} {r : HostResult} :
      Reachable p s → hostRun fuel s = some (r, t) → Reachable p t

/-- `k` steps of the machine the host runs (`Host.Core.run`), at the model's own types. -/
def stepsFrom (k : Nat) (s : State) : Host.Outcome State Fault Refusal :=
  Host.Core.run Sys2Proof.core k s

/-- Outcome (a) of R87: the run ends HALTED in `t`. -/
def RunHalts (s t : State) : Prop :=
  t.st = .halted ∧ ∃ fuel r, hostRun fuel s = some (r, t)

/-- Outcome (b) of R87: the run ends FAULTED in `t`. -/
def RunFaults (s t : State) : Prop :=
  t.st = .faulted ∧ ∃ fuel r, hostRun fuel s = some (r, t)

/-- Outcome (c) of R87: no number of steps ends the run. -/
def RunDiverges (s : State) : Prop :=
  ∀ fuel, hostRun fuel s = none

end Sys2Proof.Machine
end

