-- ==== Sys2Proof/Certificates/Slice0/Obligations.lean ====
section
/-! DEFINITION. The statements about the model, in the order of the spec's files.  Each docstring names the rule
it formalises; a rule the spec marks [derived] or a choice of the model's is named as such. -/

open Sys2Proof Sys2Proof.Machine

/-! ### 30_encoding.md: decoding -/

/-- Cells written out from the encodings of R62, R63 and the opcode map of R66 decode to their instructions, a
value with parameter-mode digits or next to an opcode does not (R61, R67), and a cut-short instruction names its
first missing cell.  The last two clauses number the cells' bits by the model's own convention for opcode-table
words, which the spec does not give (log entry 4, DESIGN CHOICE). -/
def Obligations.SpelledOutCellsDecode : Prop :=
  decode [1, 5, 6, 7] = .ok (.add 5 6 7) ∧
  decode [2, -3, 0, 300] = .ok (.mul (-3) 0 300) ∧
  decode [99, 5, 6, 7] = .ok .halt ∧
  decode [1002, 0, 0, 0] = .error (.invalidOpcode 1002) ∧
  decode [101, 0, 0, 0] = .error (.invalidOpcode 101) ∧
  decode [0, 0, 0, 0] = .error (.invalidOpcode 0) ∧
  decode [98] = .error (.invalidOpcode 98) ∧
  decode [100] = .error (.invalidOpcode 100) ∧
  decode [-1] = .error (.invalidOpcode (-1)) ∧
  decode [1, 0] = .error (.missingCell 2) ∧
  decodeTableWord 64 99 = some .halt ∧
  decodeTableWord 256 (1 + 9 * 2 ^ 64 + 10 * 2 ^ 128 + (2 ^ 64 - 1) * 2 ^ 192) = some (.add 9 10 (-1))

/-- Decoding is exactly the inverse of encoding: a list of cells decodes to `i` just when it begins with the cells
of `i`, with every operand at every integer (R62, R63, R66, R68). -/
def Obligations.DecodingInvertsEncoding : Prop :=
  ∀ (cells : List Int) (i : Instr), decode cells = .ok i ↔ encode i <+: cells

/-- In the machine: the cells of any instruction, stored from pc on, are fetched and decoded as it, with no other
cell changed; and whatever is decoded at pc is what stands encoded there, whole and inside the array. -/
def Obligations.StoredEncodingIsFetched : Prop :=
  (∀ (s : State) (i : Instr), Memory.wf s.mem = true → s.pc + i.width ≤ s.params.memCells →
    ∃ t, loadCells s.pc (encode i) s = .ok t ∧ t.pc = s.pc ∧ decodeAt t = .ok i ∧
      ∀ a, (a < s.pc ∨ s.pc + i.width ≤ a) → Memory.get t.mem a = Memory.get s.mem a) ∧
  (∀ (s : State) (i : Instr), decodeAt s = .ok i →
    s.pc + i.width ≤ s.params.memCells ∧
      ∀ k, k < i.width → (encode i)[k]? = some (Memory.get s.mem (s.pc + k)))

/-- R66 whole: the opcode is read and checked first, then the operand cells in order, and the decoder answers the
instruction, InvalidOpcode, or OutOfRangeAccess at the first missing cell. -/
def Obligations.DecodeReadsInOrder : Prop :=
  ∀ s : State, decodeAt s =
    if s.params.memCells ≤ s.pc then .error (.outOfRangeAccess s.pc)
    else if Memory.get s.mem s.pc = 1 ∨ Memory.get s.mem s.pc = 2 then
      if s.params.memCells ≤ s.pc + 1 then .error (.outOfRangeAccess (s.pc + 1))
      else if s.params.memCells ≤ s.pc + 2 then .error (.outOfRangeAccess (s.pc + 2))
      else if s.params.memCells ≤ s.pc + 3 then .error (.outOfRangeAccess (s.pc + 3))
      else if Memory.get s.mem s.pc = 1 then
        .ok (.add (Memory.get s.mem (s.pc + 1)) (Memory.get s.mem (s.pc + 2)) (Memory.get s.mem (s.pc + 3)))
      else
        .ok (.mul (Memory.get s.mem (s.pc + 1)) (Memory.get s.mem (s.pc + 2)) (Memory.get s.mem (s.pc + 3)))
    else if Memory.get s.mem s.pc = 99 then .ok .halt
    else .error (.invalidOpcode (Memory.get s.mem s.pc) s.pc)

/-- R67: every opcode other than 1, 2 and 99 is illegal; under run and under cycle it raises InvalidOpcode with the
value and its address, and nothing but st and err changes. -/
def Obligations.IllegalOpcodeIsFatal : Prop :=
  ∀ s : State, s.st = .running → s.pc < s.params.memCells →
    Memory.get s.mem s.pc ≠ 1 → Memory.get s.mem s.pc ≠ 2 → Memory.get s.mem s.pc ≠ 99 →
    step s = .next { s with st := .faulted, err := some (.invalidOpcode (Memory.get s.mem s.pc) s.pc) } ∧
    hostCycle s = (.error (some (.invalidOpcode (Memory.get s.mem s.pc) s.pc)),
      { s with st := .faulted, err := some (.invalidOpcode (Memory.get s.mem s.pc) s.pc) })

/-! ### 20_memory.md: the array and its primitives -/

/-- R41: MemRead answers the cell in 0..N-1 and raises OutOfRangeAccess(a) anywhere else, a negative address
included; it answers no state, so it has no side effect. -/
def Obligations.ReadOfOneCell : Prop :=
  ∀ (s : State) (a : Int),
    (0 ≤ a → a < s.params.memCells → memRead a s = .ok (Memory.get s.mem a.toNat)) ∧
    ((a < 0 ∨ (s.params.memCells : Int) ≤ a) → memRead a s = .error (.outOfRangeAccess a))

/-- R42: MemWrite in 0..N-1 leaves the value in its cell, every other cell and every other element of the state as
they were; anywhere else, a negative address included, it raises OutOfRangeAccess(a) and answers no state. -/
def Obligations.WriteOfOneCell : Prop :=
  ∀ (s : State) (a v : Int), Memory.wf s.mem = true →
    (0 ≤ a → a < s.params.memCells →
      ∃ m, memWrite a v s = .ok { s with mem := m } ∧ Memory.get m a.toNat = v ∧
        ∀ b : Nat, (b : Int) ≠ a → Memory.get m b = Memory.get s.mem b) ∧
    ((a < 0 ∨ (s.params.memCells : Int) ≤ a) → memWrite a v s = .error (.outOfRangeAccess a))

/-- The model's representation (log entry 2): two memories in canonical form that read alike everywhere are the
same list. -/
def Obligations.CanonicalMemoryIsItsContents : Prop :=
  ∀ m m' : Memory, Memory.wf m = true → Memory.wf m' = true →
    (∀ a, Memory.get m a = Memory.get m' a) → m = m'

/-! ### 41_arithmetic.md: the ALU, Add, Multiply -/

/-- The wrap of 00_scope.md R9 is the two's-complement reading of the low W bits: it lands in Cell, differs by a
multiple of 2^W, and leaves exactly the values of Cell alone.  (W at least 1: log entry 3.) -/
def Obligations.WrapIsTwosComplement : Prop :=
  ∀ (n : Nat) (v : Int), 1 ≤ n →
    inCell (.bits n) (wrapCell (.bits n) v) = true ∧
    (2 ^ n : Int) ∣ v - wrapCell (.bits n) v ∧
    (wrapCell (.bits n) v = v ↔ inCell (.bits n) v = true) ∧
    wrapCell (.bits n) v = (BitVec.ofInt n v).toInt

/-- R100: the result itself when it is in Cell; otherwise ArithmeticOverflow(pc) under FAULT and the low W bits read
as two's complement under WRAP; never anything but the result with W = infinity; and in the reference configuration
every result outside [-2^63, 2^63 - 1] overflows. -/
def Obligations.AluResultByPolicy : Prop :=
  (∀ (p : Params) (r : Int) (pc : Nat), p.wf = true →
    (inCell p.cellWidth r = true → aluResult p r pc = .ok r) ∧
    (inCell p.cellWidth r = false → p.overflowPolicy = .fault → aluResult p r pc = .error (.arithmeticOverflow pc)) ∧
    (∀ n, p.cellWidth = .bits n → inCell p.cellWidth r = false → p.overflowPolicy = .wrap →
      aluResult p r pc = .ok (BitVec.ofInt n r).toInt) ∧
    (p.cellWidth = .unbounded → aluResult p r pc = .ok r)) ∧
  (∀ (r : Int) (pc : Nat), (r < -(2 ^ 63) ∨ 2 ^ 63 - 1 < r) →
    aluResult Params.reference r pc = .error (.arithmeticOverflow pc))

/-- R101: the cells of an Add, and what its execution does on every operand: the first failing check of source 1,
source 2, result and destination is raised with nothing else changed; otherwise the exact signed sum of the two
source cells (wrapped when it is outside Cell under WRAP) stands in the destination cell, pc is past the
instruction's four cells, and the state is otherwise the same. -/
def Obligations.AddStoresTheSum : Prop :=
  ∀ (s : State) (a b c : Int),
    let n : Int := s.params.memCells
    let r : Int := Memory.get s.mem a.toNat + Memory.get s.mem b.toNat
    let fits := inCell s.params.cellWidth r
    encode (.add a b c) = [1, a, b, c] ∧
    ((a < 0 ∨ n ≤ a) → exec (.add a b c) s = .next (raise (.outOfRangeAccess a) s)) ∧
    (0 ≤ a → a < n → (b < 0 ∨ n ≤ b) → exec (.add a b c) s = .next (raise (.outOfRangeAccess b) s)) ∧
    (0 ≤ a → a < n → 0 ≤ b → b < n → fits = false → s.params.overflowPolicy = .fault →
      exec (.add a b c) s = .next (raise (.arithmeticOverflow s.pc) s)) ∧
    (0 ≤ a → a < n → 0 ≤ b → b < n → (fits = true ∨ s.params.overflowPolicy = .wrap) → (c < 0 ∨ n ≤ c) →
      exec (.add a b c) s = .next (raise (.outOfRangeAccess c) s)) ∧
    (0 ≤ a → a < n → 0 ≤ b → b < n → 0 ≤ c → c < n → fits = true →
      exec (.add a b c) s = .next { s with mem := Memory.put s.mem c.toNat r, pc := s.pc + 4 }) ∧
    (0 ≤ a → a < n → 0 ≤ b → b < n → 0 ≤ c → c < n → fits = false → s.params.overflowPolicy = .wrap →
      exec (.add a b c) s =
        .next { s with mem := Memory.put s.mem c.toNat (wrapCell s.params.cellWidth r), pc := s.pc + 4 })

/-- R102: the same for Multiply and the exact signed product. -/
def Obligations.MultiplyStoresTheProduct : Prop :=
  ∀ (s : State) (a b c : Int),
    let n : Int := s.params.memCells
    let r : Int := Memory.get s.mem a.toNat * Memory.get s.mem b.toNat
    let fits := inCell s.params.cellWidth r
    encode (.mul a b c) = [2, a, b, c] ∧
    ((a < 0 ∨ n ≤ a) → exec (.mul a b c) s = .next (raise (.outOfRangeAccess a) s)) ∧
    (0 ≤ a → a < n → (b < 0 ∨ n ≤ b) → exec (.mul a b c) s = .next (raise (.outOfRangeAccess b) s)) ∧
    (0 ≤ a → a < n → 0 ≤ b → b < n → fits = false → s.params.overflowPolicy = .fault →
      exec (.mul a b c) s = .next (raise (.arithmeticOverflow s.pc) s)) ∧
    (0 ≤ a → a < n → 0 ≤ b → b < n → (fits = true ∨ s.params.overflowPolicy = .wrap) → (c < 0 ∨ n ≤ c) →
      exec (.mul a b c) s = .next (raise (.outOfRangeAccess c) s)) ∧
    (0 ≤ a → a < n → 0 ≤ b → b < n → 0 ≤ c → c < n → fits = true →
      exec (.mul a b c) s = .next { s with mem := Memory.put s.mem c.toNat r, pc := s.pc + 4 }) ∧
    (0 ≤ a → a < n → 0 ≤ b → b < n → 0 ≤ c → c < n → fits = false → s.params.overflowPolicy = .wrap →
      exec (.mul a b c) s =
        .next { s with mem := Memory.put s.mem c.toNat (wrapCell s.params.cellWidth r), pc := s.pc + 4 })

/-- The frame of Add and Multiply: every cell but the destination, the parameters and the counters are unchanged;
and either the instruction completed (st and err as they were, pc past it, the destination in range) or it raised
(all of memory and pc as they were). -/
def Obligations.ArithmeticFrame : Prop :=
  ∀ (i : Instr) (a b c : Int) (s t : State), (i = .add a b c ∨ i = .mul a b c) → exec i s = .next t →
    t.params = s.params ∧ t.runCount = s.runCount ∧ t.freeDraws = s.freeDraws ∧
    (∀ x : Nat, (x : Int) ≠ c → Memory.get t.mem x = Memory.get s.mem x) ∧
    ((t.st = s.st ∧ t.err = s.err ∧ t.pc = s.pc + 4 ∧ 0 ≤ c ∧ c < s.params.memCells) ∨
      (t.st = .faulted ∧ t.err ≠ none ∧ t.pc = s.pc ∧ t.mem = s.mem))

/-! ### 42_halt.md: Halt -/

/-- R110: Halt sets st = HALTED and nothing else: pc stays, no cell is written; only its own cell is read, so it is
legal in the last cell.  Under run there is no fault; under cycle it raises CycleWhenHalted(pc). -/
def Obligations.HaltStopsInPlace : Prop :=
  encode .halt = [99] ∧
  (∀ s : State, exec .halt s = .next { s with st := .halted }) ∧
  (∀ s : State, s.st = .running → s.pc < s.params.memCells → Memory.get s.mem s.pc = 99 →
    step s = .next { s with st := .halted } ∧
    hostCycle s = (.error (some (.cycleWhenHalted s.pc)),
      { s with st := .faulted, err := some (.cycleWhenHalted s.pc) }))

/-! ### 40_execution_cycle.md: the step, run, cycle, halted -/

/-- R81, for the model's `step`.  A step of a running machine raises Decode's fault, or finds Halt and sets HALTED,
or raises TimeoutError under run with the budget used up, or runs exec on the instruction decoded at pc, run_count
then counting it if the step is under run and raised nothing.  Derived: that the one step of the host's interface is
the step under run is log entry 8 (DEDUCED), and that it answers the outcomes coreHalted and coreFaulted where R82
says there is no step is log entry 6 (DEDUCED). -/
def Obligations.StepRunsTheDecodedInstruction : Prop :=
  (∀ s : State, step s = stepUnder true s) ∧
  (∀ s : State, s.st = .halted → step s = .fault (.coreHalted s.pc)) ∧
  (∀ s : State, s.st = .faulted → step s = .fault (.coreFaulted s.err)) ∧
  (∀ (u : Bool) (s : State) (f : FaultRecord), s.st = .running → decodeAt s = .error f →
    stepUnder u s = .next (raise f s)) ∧
  (∀ (u : Bool) (s : State), s.st = .running → decodeAt s = .ok .halt →
    stepUnder u s = .next { s with st := .halted }) ∧
  (∀ (s : State) (i : Instr) (b : Nat), s.st = .running → decodeAt s = .ok i → i ≠ .halt →
    s.params.cycleBudget = some b → s.runCount = b → stepUnder true s = .next (raise (.timeoutError b) s)) ∧
  (∀ (u : Bool) (s : State) (i : Instr), s.st = .running → decodeAt s = .ok i → i ≠ .halt →
    (u = false ∨ s.params.cycleBudget ≠ some s.runCount) →
    ∃ t, exec i s = .next t ∧
      stepUnder u s = .next (if u = true ∧ t.st = .running then { t with runCount := t.runCount + 1 } else t))

/-- R82: a HALTED or FAULTED core has no step, under run or not, and no operation but reset and load makes st
RUNNING again. -/
def Obligations.StoppedCoreHasNoStep : Prop :=
  (∀ s : State, s.st ≠ .running → (∀ t, step s ≠ .next t) ∧ ∀ u t, stepUnder u s ≠ .next t) ∧
  (∀ s : State, s.st ≠ .running →
    (∀ overrides t, hostInit overrides s ≠ .next t) ∧ (hostCycle s).2.st ≠ .running ∧
    (∀ fuel r t, hostRun fuel s = some (r, t) → t.st ≠ .running)) ∧
  (∀ s : State, (hostReset s).st = .running) ∧
  (∀ (s : State) (program : List Int), programWf s.params program = true →
    ∃ t, hostLoad program s = .next t ∧ t.st = .running)

/-- R83: on a FAULTED machine run takes no step and returns the stored error; on a HALTED one it returns OK with
run_count zeroed; on a running one it zeroes run_count and takes steps until the first state that is not running,
and returns OK if that is HALTED and its err if it is FAULTED.  The steps are those of the machine the host runs,
`Host.Core.run` (`stepsFrom`). -/
def Obligations.RunIsRepeatedStep : Prop :=
  (∀ (fuel : Nat) (s : State), s.st = .faulted → hostRun fuel s = some (.error s.err, s)) ∧
  (∀ (fuel : Nat) (s : State), s.st = .halted → hostRun fuel s = some (.ok, { s with runCount := 0 })) ∧
  (∀ (fuel : Nat) (s t : State) (r : HostResult), s.st = .running →
    (hostRun fuel s = some (r, t) ↔
      ∃ k, k ≤ fuel ∧ stepsFrom k { s with runCount := 0 } = .next t ∧
        ((t.st = .halted ∧ r = .ok) ∨ (t.st = .faulted ∧ r = .error t.err))))

/-- R84: cycle returns the stored error of a FAULTED machine; raises CycleWhenHalted(pc) on a HALTED one and on
one with Halt at pc; raises Decode's fault; and otherwise executes the Add or Multiply uncounted and returns OK or
the error it raised.  It never sets HALTED and never raises TimeoutError. -/
def Obligations.CycleIsOneInstruction : Prop :=
  (∀ s : State, s.st = .faulted → hostCycle s = (.error s.err, s)) ∧
  (∀ s : State, s.st = .halted →
    hostCycle s = (.error (some (.cycleWhenHalted s.pc)), raise (.cycleWhenHalted s.pc) s)) ∧
  (∀ s : State, s.st = .running → decodeAt s = .ok .halt →
    hostCycle s = (.error (some (.cycleWhenHalted s.pc)), raise (.cycleWhenHalted s.pc) s)) ∧
  (∀ (s : State) (f : FaultRecord), s.st = .running → decodeAt s = .error f →
    hostCycle s = (.error (some f), raise f s)) ∧
  (∀ (s : State) (i : Instr), s.st = .running → decodeAt s = .ok i → i ≠ .halt →
    ∃ t, exec i s = .next t ∧ hostCycle s = ((if t.st = .faulted then .error t.err else .ok), t)) ∧
  (∀ s : State, (hostCycle s).2.st ≠ .halted) ∧
  (∀ (s : State) (b : Nat), (hostCycle s).2.err = some (.timeoutError b) → s.err = some (.timeoutError b))

/-- R80: halted is TRUE exactly when Halt stands at a pc in range, FALSE exactly when an Add or a Multiply decodes
there, and otherwise the decode error, which the next step of a running machine raises; it does not depend on st,
err or run_count; it is TRUE after a run that ends HALTED, and InvalidOpcode(0, 0) on a reset machine. -/
def Obligations.HaltedIsAQuery : Prop :=
  (∀ s : State, hostHalted s = .ok true ↔ s.pc < s.params.memCells ∧ Memory.get s.mem s.pc = 99) ∧
  (∀ s : State, hostHalted s = .ok false ↔ ∃ i, decodeAt s = .ok i ∧ i ≠ .halt) ∧
  (∀ (s : State) (f : FaultRecord), hostHalted s = .error f ↔ decodeAt s = .error f) ∧
  (∀ (s : State) (f : FaultRecord), s.st = .running → hostHalted s = .error f → step s = .next (raise f s)) ∧
  (∀ (s : State) (st : Status) (err : Option FaultRecord) (n : Nat),
    hostHalted { s with st := st, err := err, runCount := n } = hostHalted s) ∧
  (∀ (s t : State) (fuel : Nat) (r : HostResult), s.st = .running → hostRun fuel s = some (r, t) →
    t.st = .halted → hostHalted t = .ok true) ∧
  (∀ p : Params, p.wf = true → hostHalted (State.resetWith p) = .error (.invalidOpcode 0 0))

/-- R85: with CYCLE_BUDGET = SOME b, a step under run that would execute an Add or a Multiply when run_count = b
raises TimeoutError(b) and executes nothing, a Halt is found whatever run_count is, and a run executes at most b
instructions, as many as pc has moved by fours; with NONE no run raises TimeoutError; and cycle never checks it. -/
def Obligations.BudgetBoundsARun : Prop :=
  (∀ (s : State) (i : Instr), s.st = .running → decodeAt s = .ok i → i ≠ .halt →
    s.params.cycleBudget = some s.runCount →
    step s = .next { s with st := .faulted, err := some (.timeoutError s.runCount) }) ∧
  (∀ s : State, s.st = .running → decodeAt s = .ok .halt → step s = .next { s with st := .halted }) ∧
  (∀ (s t : State) (fuel : Nat) (r : HostResult), s.st = .running → hostRun fuel s = some (r, t) →
    t.pc = s.pc + 4 * t.runCount ∧ (∀ b, s.params.cycleBudget = some b → t.runCount ≤ b) ∧
    (∀ b, t.err = some (.timeoutError b) → t.st = .faulted →
      s.params.cycleBudget = some b ∧ t.runCount = b)) ∧
  (∀ (s t : State) (b : Nat), s.st = .running → s.err = none → stepUnder false s = .next t →
    t.err ≠ some (.timeoutError b))

/-- pc is advanced in one way only.  After a step of a running machine, st is still RUNNING exactly when an Add or a
Multiply completed, and then pc is 4 further; in every other case pc is unchanged.  (The spec marks the rule
[derived].) -/
def Obligations.PcAdvancesByFourOrStays : Prop :=
  ∀ (u : Bool) (s t : State), stepUnder u s = .next t →
    (t.st = .running → t.pc = s.pc + 4 ∧ s.pc + 3 < s.params.memCells ∧
      (Memory.get s.mem s.pc = 1 ∨ Memory.get s.mem s.pc = 2)) ∧
    (t.st ≠ .running → t.pc = s.pc)

/-- Of the three ends of a run that 40_execution_cycle.md R87 names, only HALTED and FAULTED are left: every run,
from any state, ends within (N - pc) / 4 + 1 steps, since each cycle moves pc on by 4 and the fetch past the array
faults; it ends in one state, whatever fuel it is observed with, and none is without end.  (Derived: log entry 7
says how this stands to 60_exceptions.md R133.) -/
def Obligations.EveryRunEnds : Prop :=
  (∀ (s : State) (fuel : Nat), (s.params.memCells - s.pc) / 4 + 1 ≤ fuel →
    ∃ r t, hostRun fuel s = some (r, t) ∧ (t.st = .halted ∨ t.st = .faulted)) ∧
  (∀ s : State, ¬ RunDiverges s ∧
    ∃ t, (RunHalts s t ∨ RunFaults s t) ∧ ∀ t', RunHalts s t' ∨ RunFaults s t' → t' = t)

/-- The end of a run that began RUNNING with no fault: HALTED with no fault, Halt at pc and OK returned, or FAULTED
with the fault in err and returned. -/
def Obligations.RunEndsHaltedOrFaulted : Prop :=
  ∀ (s t : State) (fuel : Nat) (r : HostResult), s.st = .running → s.err = none →
    hostRun fuel s = some (r, t) →
    (t.st = .halted ∧ t.err = none ∧ r = .ok ∧ t.pc < s.params.memCells ∧ Memory.get t.mem t.pc = 99) ∨
    (t.st = .faulted ∧ ∃ f, t.err = some f ∧ r = .error (some f))

/-- The cycle-count property: straight-line code of k Adds and Multiplies from address 0 followed by Halt, whose
operands are in range and which writes no later instruction's cell, run with a budget of at least k or none and no
overflow raised, ends HALTED at the Halt after exactly k cycles.  (The spec marks the rule R89 [derived].) -/
def Obligations.StraightLineTakesOneCycleEach : Prop :=
  ∀ (s : State) (k : Nat), s.st = .running → s.pc = 0 → (∀ b, s.params.cycleBudget = some b → k ≤ b) →
    4 * k < s.params.memCells →
    (∀ j, j < k → Memory.get s.mem (4 * j) = 1 ∨ Memory.get s.mem (4 * j) = 2) →
    Memory.get s.mem (4 * k) = 99 →
    (∀ j d, j < k → 1 ≤ d → d ≤ 3 →
      0 ≤ Memory.get s.mem (4 * j + d) ∧ Memory.get s.mem (4 * j + d) < s.params.memCells) →
    (∀ j, j < k → Memory.get s.mem (4 * j + 3) < 4 * (j : Int) + 4 ∨
      4 * (k : Int) < Memory.get s.mem (4 * j + 3)) →
    (∀ fuel r t a, hostRun fuel s = some (r, t) → t.err ≠ some (.arithmeticOverflow a)) →
    ∃ t, hostRun (k + 1) s = some (.ok, t) ∧ t.st = .halted ∧ t.pc = 4 * k ∧ t.runCount = k

/-- A cycle does to M, pc, st and err what a step under run does, where an Add or a Multiply stands at pc and no
budget is used up: only run_count tells them apart. -/
def Obligations.CycleMatchesStepUnderRun : Prop :=
  ∀ (s : State) (i : Instr), s.st = .running → decodeAt s = .ok i → i ≠ .halt →
    s.params.cycleBudget ≠ some s.runCount →
    ∃ t, step s = .next t ∧ (hostCycle s).2 = { t with runCount := s.runCount }

/-! ### 60_exceptions.md: faults -/

/-- The codes of R120 tell the kinds apart, and each record has the kind of its name. -/
def Obligations.FaultKindsAndCodes : Prop :=
  (FaultKind.invalidOpcode.code = 1 ∧ FaultKind.outOfRangeAccess.code = 2 ∧ FaultKind.cycleWhenHalted.code = 3 ∧
    FaultKind.arithmeticOverflow.code = 4 ∧ FaultKind.timeoutError.code = 5) ∧
  (∀ k k' : FaultKind, k.code = k'.code → k = k') ∧
  (∀ (v : Int) (a : Nat), (FaultRecord.invalidOpcode v a).kind = .invalidOpcode) ∧
  (∀ a : Int, (FaultRecord.outOfRangeAccess a).kind = .outOfRangeAccess) ∧
  (∀ a : Nat, (FaultRecord.cycleWhenHalted a).kind = .cycleWhenHalted) ∧
  (∀ a : Nat, (FaultRecord.arithmeticOverflow a).kind = .arithmeticOverflow) ∧
  (∀ b : Nat, (FaultRecord.timeoutError b).kind = .timeoutError)

/-- R122: raise sets st = FAULTED and err, and no more; and the run or cycle in progress returns that err. -/
def Obligations.RaiseSetsStatusAndRecord : Prop :=
  (∀ (f : FaultRecord) (s : State), raise f s = { s with st := .faulted, err := some f }) ∧
  (∀ (fuel : Nat) (s t : State) (r : HostResult), hostRun fuel s = some (r, t) → t.st = .faulted →
    r = .error t.err) ∧
  (∀ s : State, (hostCycle s).2.st = .faulted → (hostCycle s).1 = .error (hostCycle s).2.err)

/-- Faults raised by steps are precise: a step that raises leaves every element but st and err as it was.  (The
spec marks the rule [derived].) -/
def Obligations.StepFaultsArePrecise : Prop :=
  ∀ (u : Bool) (s t : State), stepUnder u s = .next t → t.st = .faulted →
    ∃ f, t = { s with st := .faulted, err := some f }

/-- R124: the fault a step raises is the first failing check of the rule's list, and a step with no failing check
raises none; under cycle, CycleWhenHalted comes at once on a HALTED machine and otherwise after the opcode's fetch
and legality and before the operand cells. -/
def Obligations.FirstFailingCheckIsRaised : Prop :=
  (∀ (u : Bool) (s : State) (f : FaultRecord), s.st = .running → firstFailingCheck u s = some f →
    stepUnder u s = .next (raise f s)) ∧
  (∀ (u : Bool) (s : State), s.st = .running → firstFailingCheck u s = none →
    ∃ t, stepUnder u s = .next t ∧ t.st ≠ .faulted ∧ t.err = s.err) ∧
  (∀ s : State, (s.st = .halted ∨
      (s.st = .running ∧ s.pc < s.params.memCells ∧ Memory.get s.mem s.pc = 99)) →
    (hostCycle s).2 = raise (.cycleWhenHalted s.pc) s) ∧
  (∀ (s : State) (f : FaultRecord), s.st = .running → firstFailingCheck false s = some f →
    hostCycle s = (.error (some f), raise f s)) ∧
  (∀ s : State, s.st = .running → firstFailingCheck false s = none → Memory.get s.mem s.pc ≠ 99 →
    (hostCycle s).1 = .ok)

/-- R125: run and cycle on a FAULTED machine perform no step and return the stored err, init is refused, and reset
and a load that fits clear err and set st = RUNNING. -/
def Obligations.FaultedIsTerminal : Prop :=
  ∀ s : State, s.st = .faulted →
    (∀ t, step s ≠ .next t) ∧ (∀ fuel, hostRun fuel s = some (.error s.err, s)) ∧
    hostCycle s = (.error s.err, s) ∧
    (∀ overrides, hostInit overrides s = .refused (.initWhenStopped .faulted)) ∧
    (hostReset s).st = .running ∧ (hostReset s).err = none ∧
    (∀ program, programWf s.params program = true →
      ∃ t, hostLoad program s = .next t ∧ t.st = .running ∧ t.err = none)

/-! ### 10_state.md: reset values and invariants -/

/-- The reset values of R32, after reset and at power-on, for all parameters; after a load that fits, the same but
for the program's cells; and a run on a reset machine faults at once with InvalidOpcode(0, 0).  Derived: R32 marks
its sentence on that run [derived], and the zeros at power-on are the spec's decision D12 (log entry 10). -/
def Obligations.ResetValues : Prop :=
  (∀ s p, (s = State.resetWith p ∨ ∃ s', s = hostReset s') →
    (∀ a, Memory.get s.mem a = 0) ∧ s.pc = 0 ∧ s.st = .running ∧ s.err = none ∧ s.runCount = 0) ∧
  (∀ (s t : State) (program : List Int), programWf s.params program = true → hostLoad program s = .next t →
    (∀ a, Memory.get t.mem a = program.getD a 0) ∧ t.pc = 0 ∧ t.st = .running ∧ t.err = none ∧ t.runCount = 0) ∧
  (∀ (p : Params) (fuel : Nat), p.wf = true →
    hostRun (fuel + 1) (State.resetWith p) =
      some (.error (some (.invalidOpcode 0 0)), raise (.invalidOpcode 0 0) (State.resetWith p)))

/-- The reset state of the machine the host runs is that of the reference configuration, N = 256, W = 64, FAULT and
no budget (R5 to R8), and it meets the invariant, as the reset state of every well-formed configuration does. -/
def Obligations.ResetStateMeetsInvariant : Prop :=
  Sys2Proof.core.reset = State.resetWith ⟨256, .bits 64, .fault, none⟩ ∧ State.reset.Inv ∧
  ∀ p : Params, p.wf = true → (State.resetWith p).Inv

/-- Every step keeps the invariant: memory canonical and within N and Cell, pc a multiple of 4 and at most N, Halt
at pc while HALTED, err set exactly while FAULTED. -/
def Obligations.StepKeepsInvariant : Prop :=
  ∀ s t : State, s.Inv → step s = .next t → t.Inv

/-- Every host operation keeps the invariant, a load that does not fit and an init that faults partway included. -/
def Obligations.HostOperationsKeepInvariant : Prop :=
  ∀ s : State, s.Inv →
    (hostReset s).Inv ∧
    (∀ program t, hostLoad program s = .next t → t.Inv) ∧
    (∀ overrides t, hostInit overrides s = .next t → t.Inv) ∧
    (hostCycle s).2.Inv ∧
    (∀ fuel r t, hostRun fuel s = some (r, t) → t.Inv)

/-- In every state that power-on, steps and host operations reach, the invariant holds and the parameters are those
of power-on. -/
def Obligations.ReachableStatesMeetInvariant : Prop :=
  ∀ (p : Params) (s : State), p.wf = true → Reachable p s → s.Inv ∧ s.params = p

/-- At the top of memory: the fetch at or past N faults at pc; an Add or a Multiply cut short faults at address N,
its first missing cell; a Halt in the last cell is legal.  In each case pc does not move. -/
def Obligations.TopOfMemory : Prop :=
  (∀ s : State, s.st = .running → s.params.memCells ≤ s.pc →
    step s = .next (raise (.outOfRangeAccess s.pc) s)) ∧
  (∀ s : State, s.st = .running → s.pc < s.params.memCells → s.params.memCells ≤ s.pc + 3 →
    (Memory.get s.mem s.pc = 1 ∨ Memory.get s.mem s.pc = 2) →
    step s = .next (raise (.outOfRangeAccess s.params.memCells) s)) ∧
  (∀ s : State, s.st = .running → s.pc + 1 = s.params.memCells → Memory.get s.mem s.pc = 99 →
    step s = .next { s with st := .halted })

/-! ### 20_memory.md: requests, one write, self-modification -/

/-- One step writes at most one cell, and it is the destination of a completed Add or Multiply. -/
def Obligations.StepWritesOnlyTheDestination : Prop :=
  ∀ (u : Bool) (s t : State) (x : Nat), stepUnder u s = .next t → Memory.get t.mem x ≠ Memory.get s.mem x →
    t.st = .running ∧ s.pc + 3 < s.params.memCells ∧ (x : Int) = Memory.get s.mem (s.pc + 3)

/-- The requests of a step: the table of 20_memory.md section 6.  Where pc is past the array or its cell is neither
1 nor 2, pc alone is read; otherwise the requests are a prefix of the table's row, with the ALU's result as the value
written, however early the step is cut short: the whole row when it completes, six on an overflow, four on a timeout;
and the step raises OutOfRangeAccess(a) exactly when its last request is answered OUT_OF_RANGE at a, every request
before the last being answered.  (The spec marks the rule R55 [derived].) -/
def Obligations.RequestsOfAStep : Prop :=
  (∀ (u : Bool) (s : State), s.st = .running →
    (s.params.memCells ≤ s.pc ∨ (Memory.get s.mem s.pc ≠ 1 ∧ Memory.get s.mem s.pc ≠ 2)) →
    stepRequests u s = [.read s.pc]) ∧
  (∀ (u : Bool) (s : State), s.st = .running →
    (Memory.get s.mem s.pc = 1 ∨ Memory.get s.mem s.pc = 2) →
    let a := Memory.get s.mem (s.pc + 1)
    let b := Memory.get s.mem (s.pc + 2)
    let c := Memory.get s.mem (s.pc + 3)
    let x := Memory.get s.mem a.toNat
    let y := Memory.get s.mem b.toNat
    ∃ v, stepRequests u s <+:
        [.read s.pc, .read (s.pc + 1), .read (s.pc + 2), .read (s.pc + 3), .read a, .read b, .write c v] ∧
      (Request.write c v ∈ stepRequests u s →
        aluResult s.params (if Memory.get s.mem s.pc = 1 then x + y else x * y) s.pc = .ok v)) ∧
  (∀ (u : Bool) (s t : State), s.st = .running → stepUnder u s = .next t → t.st = .running →
    ∃ a b c v, stepRequests u s =
        [.read s.pc, .read (s.pc + 1), .read (s.pc + 2), .read (s.pc + 3), .read a, .read b, .write c v] ∧
      a = Memory.get s.mem (s.pc + 1) ∧ b = Memory.get s.mem (s.pc + 2) ∧ c = Memory.get s.mem (s.pc + 3) ∧
      memWrite c v s = .ok { s with mem := t.mem }) ∧
  (∀ (u : Bool) (s t : State), s.st = .running → stepUnder u s = .next t →
    (t.err = some (.arithmeticOverflow s.pc) → t.st = .faulted →
      stepRequests u s =
        [.read s.pc, .read (s.pc + 1), .read (s.pc + 2), .read (s.pc + 3),
          .read (Memory.get s.mem (s.pc + 1)), .read (Memory.get s.mem (s.pc + 2))]) ∧
    (∀ b, t.err = some (.timeoutError b) → t.st = .faulted →
      stepRequests u s = [.read s.pc, .read (s.pc + 1), .read (s.pc + 2), .read (s.pc + 3)])) ∧
  (∀ (u : Bool) (s : State) (a : Int), s.st = .running →
    (stepUnder u s = .next (raise (.outOfRangeAccess a) s) ↔
      ∃ before last, stepRequests u s = before ++ [last] ∧ last.addr = a ∧ (serve last s).1 = .outOfRange)) ∧
  (∀ (u : Bool) (s : State) (before : List Request) (last : Request), stepRequests u s = before ++ [last] →
    ∀ r ∈ before, (serve r s).1 ≠ .outOfRange)

/-- A step depends on memory only through its read requests: with the cells it reads the same, any other memory
gives the same requests, the same pc, st, err and run_count, and the same value written. -/
def Obligations.StepDependsOnlyOnItsReads : Prop :=
  ∀ (u : Bool) (s t : State) (m : Memory), stepUnder u s = .next t →
    (∀ a : Nat, a < s.params.memCells → Request.read (a : Int) ∈ stepRequests u s →
      Memory.get m a = Memory.get s.mem a) →
    stepRequests u { s with mem := m } = stepRequests u s ∧
    ∃ m', stepUnder u { s with mem := m } = .next { t with mem := m' } ∧
      (∀ a : Nat, Memory.get m' a ≠ Memory.get m a → ∃ v, Request.write (a : Int) v ∈ stepRequests u s) ∧
      (∀ (a : Nat) (v : Int), Memory.wf s.mem = true → Memory.wf m = true → t.st = .running →
        Request.write (a : Int) v ∈ stepRequests u s → Memory.get m' a = v ∧ Memory.get t.mem a = v)

/-- Instruction-fetch coherence (R52).  The instruction running uses the cells Decode read before its write, even
when it writes its own cells (a sentence R52 marks [derived]).  And the next step decodes the cells as the write left
them: where the write is into the next opcode cell, or that cell is in the array at all, 99 there halts the next
step, an illegal value faults it, and 1 or 2 there, with its operand cells in the array, decodes to the Add or the
Multiply of the cells that stand there then. -/
def Obligations.WritesAreSeenByTheNextDecode : Prop :=
  ∀ (s t : State), Memory.wf s.mem = true → s.st = .running → step s = .next t → t.st = .running →
    (∃ i, decodeAt s = .ok i ∧
      ((∃ a b c, i = .add a b c ∧ aluResult s.params (Memory.get s.mem a.toNat + Memory.get s.mem b.toNat) s.pc =
          .ok (Memory.get t.mem c.toNat)) ∨
        (∃ a b c, i = .mul a b c ∧ aluResult s.params (Memory.get s.mem a.toNat * Memory.get s.mem b.toNat) s.pc =
          .ok (Memory.get t.mem c.toNat)))) ∧
    ((Memory.get s.mem (s.pc + 3) = s.pc + 4 ∨ s.pc + 4 < s.params.memCells) →
      let cell := fun k => Memory.get t.mem (s.pc + 4 + k)
      (cell 0 = 99 → step t = .next { t with st := .halted }) ∧
      (cell 0 ≠ 1 → cell 0 ≠ 2 → cell 0 ≠ 99 → step t = .next (raise (.invalidOpcode (cell 0) (s.pc + 4)) t)) ∧
      (cell 0 = 1 → s.pc + 7 < s.params.memCells → decodeAt t = .ok (.add (cell 1) (cell 2) (cell 3))) ∧
      (cell 0 = 2 → s.pc + 7 < s.params.memCells → decodeAt t = .ok (.mul (cell 1) (cell 2) (cell 3))))

/-! ### 70_reset_and_hazards.md: the host's operations -/

/-- R140 with R141 and R142: reset gives every element of the state its reset value in any st and keeps the
parameters, the capacity among them; the counter's reset writes pc alone, and clear makes every cell 0 and changes
nothing else. -/
def Obligations.ResetClearsEverything : Prop :=
  (∀ s : State, (∀ a, Memory.get (hostReset s).mem a = 0) ∧ (hostReset s).pc = 0 ∧ (hostReset s).st = .running ∧
    (hostReset s).err = none ∧ (hostReset s).runCount = 0 ∧ (hostReset s).params = s.params) ∧
  (∀ s : State, resetCounter s = { s with pc := 0 }) ∧
  (∀ s : State, (∀ a, Memory.get (clearMemory s).mem a = 0) ∧
    clearMemory s = { s with mem := (clearMemory s).mem })

/-- R143: the memory load writes the sequence from address 0 on and does not clear the remainder; past the array it
faults at address N; and the block takes only values of Cell: a load it answers with a next state had no other.  (How
it answers one that had: ValuesOutsideCellAreRefused.) -/
def Obligations.MemoryLoadOverwritesAPrefix : Prop :=
  (∀ (s : State) (program : List Int), Memory.wf s.mem = true → program.length ≤ s.params.memCells →
    ∃ m, loadCells 0 program s = .ok { s with mem := m } ∧
      (∀ i, i < program.length → Memory.get m i = program.getD i 0) ∧
      (∀ i, program.length ≤ i → Memory.get m i = Memory.get s.mem i)) ∧
  (∀ (s : State) (program : List Int), s.params.memCells < program.length →
    loadCells 0 program s = .error (.outOfRangeAccess s.params.memCells)) ∧
  (∀ (s t : State) (program : List Int), hostLoad program s = .next t →
    ∀ v ∈ program, inCell s.params.cellWidth v = true)

/-- R144: a load that fits leaves the program from address 0 on, 0 in every other cell, pc = 0, RUNNING and no
fault, in any st; one that does not fit leaves the machine FAULTED with OutOfRangeAccess(N) (and its cells any
value: no statement says more of them). -/
def Obligations.LoadStartsAProgram : Prop :=
  ∀ (s : State) (program : List Int), program.all (inCell s.params.cellWidth) = true →
    (program.length ≤ s.params.memCells →
      ∃ t, hostLoad program s = .next t ∧
        (∀ i, i < program.length → Memory.get t.mem i = program.getD i 0) ∧
        (∀ i, program.length ≤ i → Memory.get t.mem i = 0) ∧
        t.params = s.params ∧ t.pc = 0 ∧ t.st = .running ∧ t.err = none ∧ t.runCount = 0) ∧
    (s.params.memCells < program.length →
      ∃ t, hostLoad program s = .next t ∧ t.params = s.params ∧ t.pc = 0 ∧ t.st = .faulted ∧
        t.err = some (.outOfRangeAccess s.params.memCells) ∧ t.runCount = 0)

/-- The round trip: load, reset, load is one load, whatever memory held before.  (The spec marks the rule R156
[derived].)  The second clause also covers loads that do not fit, where the memories agree only because the free
value is drawn with the model's own counter, which the two states share; and the third says that reset keeps that
counter (log entry 5, DESIGN CHOICE). -/
def Obligations.LoadResetLoadIsLoad : Prop :=
  (∀ (s t : State) (program : List Int), programWf s.params program = true → hostLoad program s = .next t →
    hostLoad program (hostReset t) = .next t) ∧
  (∀ (s s' : State) (program : List Int), s.params = s'.params → s.freeDraws = s'.freeDraws →
    hostLoad program s = hostLoad program s') ∧
  (∀ s : State, hostReset s = { State.resetWith s.params with freeDraws := s.freeDraws })

/-- R145: on a running machine the overrides are written in list order, so that each cell holds the last value its
address is given and every other cell and element is unchanged; at the first address out of range the machine is
FAULTED with it, the pairs before it written and those after it not. -/
def Obligations.InitWritesInOrder : Prop :=
  ∀ (s : State) (overrides : List (Int × Int)), Memory.wf s.mem = true → s.st = .running →
    overridesWf s.params overrides = true →
    ((∀ o ∈ overrides, 0 ≤ o.1 ∧ o.1 < s.params.memCells) →
      ∃ m, hostInit overrides s = .next { s with mem := m } ∧
        (∀ x : Nat, Memory.get m x =
          ((overrides.reverse.find? fun o : Int × Int => decide (o.1 = (x : Int))).map Prod.snd).getD
            (Memory.get s.mem x))) ∧
    (∀ (earlier : List (Int × Int)) (a v : Int) (later : List (Int × Int)), overrides = earlier ++ (a, v) :: later →
      (∀ o ∈ earlier, 0 ≤ o.1 ∧ o.1 < s.params.memCells) → (a < 0 ∨ (s.params.memCells : Int) ≤ a) →
      ∃ t, hostInit earlier s = .next t ∧ hostInit overrides s = .next (raise (.outOfRangeAccess a) t))

/-- R150: init is refused when st is HALTED or FAULTED, and accepted while st = RUNNING (values in Cell: what the
block does with others is ValuesOutsideCellAreRefused). -/
def Obligations.InitNeedsARunningMachine : Prop :=
  (∀ (s : State) (overrides : List (Int × Int)), s.st ≠ .running →
    hostInit overrides s = .refused (.initWhenStopped s.st)) ∧
  (∀ (s : State) (overrides : List (Int × Int)), s.st = .running → overridesWf s.params overrides = true →
    ∃ t, hostInit overrides s = .next t)

/-- R146: peek answers the cell in 0..N-1 in any st, and outside it the error, which is not raised: peek answers no
state. -/
def Obligations.PeekReadsOneCell : Prop :=
  ∀ (s : State) (a : Int),
    (0 ≤ a → a < s.params.memCells → hostPeek a s = .ok (Memory.get s.mem a.toNat)) ∧
    ((a < 0 ∨ (s.params.memCells : Int) ≤ a) → hostPeek a s = .error (.outOfRangeAccess a))

/-- R151: the part-one protocol is load, init with (1, 12) and (2, 2), run, and the result is peek(0). -/
def Obligations.PartOneProtocol : Prop :=
  ∀ (s t u w : State) (program : List Int) (fuel : Nat) (v : Int),
    hostLoad program s = .next t → hostInit [(1, 12), (2, 2)] t = .next u →
    hostRun fuel u = some (.ok, w) → hostPeek 0 w = .ok v → partOne program s = .value v

/-- R152: the search answers FOUND(100 * noun + verb) exactly for the lexicographically first pair of 0..99 by 0..99
whose candidate run gives the target, every pair before it giving another value; NOTFOUND exactly when every pair
gives another value; and an error when the first pair that gives no value answers that error before any match. -/
def Obligations.SearchFindsTheFirstPair : Prop :=
  ∀ (s : State) (program : List Int) (target : Int),
    let misses := fun noun verb => ∃ v, candidate program noun verb s = .value v ∧ v ≠ target
    let missesBefore := fun noun verb => ∀ noun' verb', noun' < 100 → verb' < 100 →
      (noun' < noun ∨ (noun' = noun ∧ verb' < verb)) → misses noun' verb'
    (∀ n, search program target s = .found n ↔
      ∃ noun verb, noun < 100 ∧ verb < 100 ∧ n = 100 * noun + verb ∧
        candidate program noun verb s = .value target ∧ missesBefore noun verb) ∧
    (search program target s = .notFound ↔ ∀ noun verb, noun < 100 → verb < 100 → misses noun verb) ∧
    (∀ e, search program target s = .error e ↔
      ∃ noun verb, noun < 100 ∧ verb < 100 ∧ candidate program noun verb s = .error e ∧ missesBefore noun verb) ∧
    (∀ noun verb, candidate program noun verb s =
      loadInitRun program [(1, (noun : Int)), (2, (verb : Int))] (hostReset s))

/-- A load with a value outside Cell, also one longer than N, and an init of a running machine with such a value are
refused whole with such a value named, before anything is written (a refusal answers no state).  Derived: that the
refusal is of the whole call and comes before the length is looked at is log entry 9 (DEDUCED, from the spec's
decision D26); R143 and the last line of R145 say only that each value must be in Cell. -/
def Obligations.ValuesOutsideCellAreRefused : Prop :=
  (∀ (s : State) (program : List Int) (v : Int), v ∈ program → inCell s.params.cellWidth v = false →
    ∃ w, w ∈ program ∧ inCell s.params.cellWidth w = false ∧ hostLoad program s = .refused (.valueNotInCell w)) ∧
  (∀ (s : State) (overrides : List (Int × Int)), s.st = .running → overridesWf s.params overrides = false →
    ∃ o ∈ overrides, inCell s.params.cellWidth o.2 = false ∧ hostInit overrides s = .refused (.valueNotInCell o.2))
end

