-- ==== Sys2Proof/Laws/Cells.lean ====
section
/-! SUPPORT. The range of a cell and the wrap into it (00_scope.md R9). -/

namespace Sys2Proof.Machine

theorem inCell_bits {n : Nat} {v : Int} :
    inCell (.bits n) v = true ↔ -((2 ^ (n - 1) : Nat) : Int) ≤ v ∧ v ≤ ((2 ^ (n - 1) : Nat) : Int) - 1 := by
  simp only [inCell, decide_eq_true_eq]

@[simp] theorem inCell_unbounded (v : Int) : inCell .unbounded v = true := rfl

@[simp] theorem wrapCell_unbounded (v : Int) : wrapCell .unbounded v = v := rfl

/-- 0 is a value of Cell at every width. -/
@[simp] theorem inCell_zero (w : CellWidth) : inCell w 0 = true := by
  cases w with
  | unbounded => rfl
  | bits n =>
    rw [inCell_bits]
    have hpos : 0 < 2 ^ (n - 1) := Nat.two_pow_pos _
    generalize 2 ^ (n - 1) = m at hpos
    omega

/-- At a well-formed width 2^W is twice 2^(W-1). -/
theorem two_pow_width {n : Nat} (h : 1 ≤ n) : 2 ^ n = 2 * 2 ^ (n - 1) := by
  obtain ⟨k, rfl⟩ : ∃ k, n = k + 1 := ⟨n - 1, by omega⟩
  rw [Nat.add_sub_cancel, pow_succ, Nat.mul_comm]

end Sys2Proof.Machine
end

