-- ==== Sys2Proof/Laws/Memory.lean ====
section
/-! SUPPORT. The laws of the memory array: reading what was written, and that every memory operation keeps the
canonical form and the bounds. -/

namespace Sys2Proof.Machine

@[simp] theorem Memory.get_nil (a : Nat) : Memory.get [] a = 0 := rfl

/-- A cell below every listed address reads as 0. -/
theorem Memory.get_of_all_above {m : Memory} {a : Nat} (h : ∀ e ∈ m, a < e.1) : Memory.get m a = 0 := by
  induction m with
  | nil => rfl
  | cons e rest ih =>
    obtain ⟨k, v⟩ := e
    have hk : a < k := h (k, v) (by simp)
    rw [Memory.get, if_neg (by omega)]
    exact ih fun e he => h e (by simp [he])

/-- What the canonical form says of a list with a first entry. -/
theorem Memory.wf_cons {k : Nat} {v : Int} {rest : Memory} :
    Memory.wf ((k, v) :: rest) = true ↔ v ≠ 0 ∧ (∀ e ∈ rest, k < e.1) ∧ Memory.wf rest = true := by
  simp [Memory.wf, and_assoc]

/-- Every entry after a write is the one written or one that was there. -/
theorem Memory.mem_put {m : Memory} {a : Nat} {v : Int} {e : Nat × Int}
    (h : e ∈ Memory.put m a v) : e = (a, v) ∨ e ∈ m := by
  induction m with
  | nil =>
    unfold Memory.put at h
    split at h <;> simp_all
  | cons x rest ih =>
    obtain ⟨k, w⟩ := x
    unfold Memory.put at h
    split at h
    · split at h
      · exact .inr h
      · simpa using h
    · split at h
      · split at h
        · exact .inr (by simp [h])
        · rcases List.mem_cons.1 h with h | h
          · exact .inl h
          · exact .inr (by simp [h])
      · rcases List.mem_cons.1 h with h | h
        · exact .inr (by simp [h])
        · rcases ih h with h | h
          · exact .inl h
          · exact .inr (by simp [h])

/-- A write keeps the canonical form. -/
theorem Memory.put_wf {m : Memory} (a : Nat) (v : Int) (h : Memory.wf m = true) :
    Memory.wf (Memory.put m a v) = true := by
  induction m with
  | nil =>
    unfold Memory.put
    split <;> simp_all [Memory.wf]
  | cons x rest ih =>
    obtain ⟨k, w⟩ := x
    obtain ⟨hw, habove, hrest⟩ := Memory.wf_cons.1 h
    unfold Memory.put
    split
    case isTrue hlt =>
      split
      case isTrue => exact h
      case isFalse hv =>
        refine Memory.wf_cons.2 ⟨hv, ?_, h⟩
        intro e he
        rcases List.mem_cons.1 he with rfl | he
        · exact hlt
        · exact Nat.lt_trans hlt (habove e he)
    case isFalse =>
      split
      case isTrue heq =>
        split
        case isTrue => exact hrest
        case isFalse hv => exact Memory.wf_cons.2 ⟨hv, fun e he => heq ▸ habove e he, hrest⟩
      case isFalse =>
        refine Memory.wf_cons.2 ⟨hw, ?_, ih hrest⟩
        intro e he
        rcases Memory.mem_put he with rfl | he
        · simp only; omega
        · exact habove e he

/-- The bounds, entry by entry. -/
theorem Memory.within_iff {p : Params} {m : Memory} :
    Memory.within p m = true ↔ ∀ e ∈ m, e.1 < p.memCells ∧ inCell p.cellWidth e.2 = true := by
  simp [Memory.within]

/-- A write of a value of Cell inside the array keeps the bounds. -/
theorem Memory.put_within {p : Params} {m : Memory} {a : Nat} {v : Int} (ha : a < p.memCells)
    (hv : inCell p.cellWidth v = true) (h : Memory.within p m = true) :
    Memory.within p (Memory.put m a v) = true := by
  rw [Memory.within_iff] at *
  intro e he
  rcases Memory.mem_put he with rfl | he
  · exact ⟨ha, hv⟩
  · exact h e he

/-- Reading after a write, in a memory of canonical form: the cell written holds the value, every other cell what
it held. -/
theorem Memory.get_put {m : Memory} (h : Memory.wf m = true) (a b : Nat) (v : Int) :
    Memory.get (Memory.put m a v) b = if b = a then v else Memory.get m b := by
  induction m with
  | nil =>
    unfold Memory.put
    split
    case isTrue hv => simp [hv]
    case isFalse => simp [Memory.get, eq_comm]
  | cons x rest ih =>
    obtain ⟨k, w⟩ := x
    obtain ⟨hw, habove, hrest⟩ := Memory.wf_cons.1 h
    unfold Memory.put
    split
    case isTrue hlt =>
      have hz : Memory.get ((k, w) :: rest) a = 0 := by
        apply Memory.get_of_all_above
        intro e he
        rcases List.mem_cons.1 he with rfl | he
        · exact hlt
        · exact Nat.lt_trans hlt (habove e he)
      split
      case isTrue hv =>
        by_cases hb : b = a
        · rw [if_pos hb, hb, hz, hv]
        · rw [if_neg hb]
      case isFalse => rw [Memory.get]; simp only [eq_comm]
    case isFalse hnlt =>
      split
      case isTrue heq =>
        subst heq
        split
        case isTrue hv =>
          by_cases hb : b = a
          · rw [if_pos hb, hb, hv]; exact Memory.get_of_all_above habove
          · rw [if_neg hb, Memory.get, if_neg (Ne.symm hb)]
        case isFalse =>
          by_cases hb : b = a
          · simp [Memory.get, hb]
          · simp [Memory.get, hb, Ne.symm hb]
      case isFalse hne =>
        rw [Memory.get, Memory.get, ih hrest]
        by_cases hk : k = b
        · subst hk; rw [if_pos rfl, if_neg (Ne.symm hne), if_pos rfl]
        · rw [if_neg hk, if_neg hk]

/-- A write leaves every other cell as it was, in any list of entries. -/
theorem Memory.get_put_other {m : Memory} {a b : Nat} (v : Int) (hb : b ≠ a) :
    Memory.get (Memory.put m a v) b = Memory.get m b := by
  induction m with
  | nil => unfold Memory.put; split <;> simp [Memory.get, hb.symm]
  | cons x rest ih =>
    obtain ⟨k, w⟩ := x
    unfold Memory.put
    split
    · split <;> simp [Memory.get, hb.symm]
    · split
      case isTrue heq => subst heq; split <;> simp [Memory.get, hb.symm]
      case isFalse => rw [Memory.get, Memory.get, ih]

/-- The value of a cell in a memory within its bounds is a value of Cell, where 0 is one. -/
theorem Memory.get_inCell {p : Params} {m : Memory} (h : Memory.within p m = true)
    (h0 : inCell p.cellWidth 0 = true) (a : Nat) : inCell p.cellWidth (Memory.get m a) = true := by
  rw [Memory.within_iff] at h
  induction m with
  | nil => exact h0
  | cons x rest ih =>
    obtain ⟨k, v⟩ := x
    rw [Memory.get]
    split
    · exact (h (k, v) (by simp)).2
    · exact ih fun e he => h e (by simp [he])

/-- A list of cells in rising order, less its zeros, is in canonical form. -/
theorem Memory.wf_filter_map (f : Nat → Int) (l : List Nat) (h : l.Pairwise (· < ·)) :
    Memory.wf ((l.map fun a => (a, f a)).filter fun e => decide (e.2 ≠ 0)) = true := by
  induction l with
  | nil => rfl
  | cons a rest ih =>
    obtain ⟨habove, hrest⟩ := List.pairwise_cons.1 h
    rw [List.map_cons, List.filter_cons]
    split
    case isTrue hv =>
      refine Memory.wf_cons.2 ⟨by simpa using hv, ?_, ih hrest⟩
      intro e he
      obtain ⟨b, hb, rfl⟩ := List.mem_map.1 (List.mem_filter.1 he).1
      exact habove b hb
    case isFalse => exact ih hrest

/-- The free memory of a failed load is in canonical form. -/
theorem freeMemory_wf (p : Params) (draw : Nat) : Memory.wf (freeMemory p draw) = true :=
  Memory.wf_filter_map (fun a => wrapCell p.cellWidth (Config.failedLoadCell draw a)) _ List.pairwise_lt_range

end Sys2Proof.Machine
end

