-- ==== Sys2Proof/Laws/State.lean ====
section
/-! SUPPORT. One lemma per field per update of the state, so that no later proof unfolds a record update. -/

namespace Sys2Proof.Machine

/-! ### raise -/

@[simp] theorem raise_params (f : FaultRecord) (s : State) : (raise f s).params = s.params := rfl
@[simp] theorem raise_mem (f : FaultRecord) (s : State) : (raise f s).mem = s.mem := rfl
@[simp] theorem raise_pc (f : FaultRecord) (s : State) : (raise f s).pc = s.pc := rfl
@[simp] theorem raise_st (f : FaultRecord) (s : State) : (raise f s).st = .faulted := rfl
@[simp] theorem raise_err (f : FaultRecord) (s : State) : (raise f s).err = some f := rfl
@[simp] theorem raise_runCount (f : FaultRecord) (s : State) : (raise f s).runCount = s.runCount := rfl
@[simp] theorem raise_freeDraws (f : FaultRecord) (s : State) : (raise f s).freeDraws = s.freeDraws := rfl

/-! ### advancePc -/

@[simp] theorem advancePc_params (s : State) : (advancePc s).params = s.params := rfl
@[simp] theorem advancePc_mem (s : State) : (advancePc s).mem = s.mem := rfl
@[simp] theorem advancePc_pc (s : State) : (advancePc s).pc = s.pc + 4 := rfl
@[simp] theorem advancePc_st (s : State) : (advancePc s).st = s.st := rfl
@[simp] theorem advancePc_err (s : State) : (advancePc s).err = s.err := rfl
@[simp] theorem advancePc_runCount (s : State) : (advancePc s).runCount = s.runCount := rfl
@[simp] theorem advancePc_freeDraws (s : State) : (advancePc s).freeDraws = s.freeDraws := rfl

/-! ### the pieces of reset -/

@[simp] theorem freshStart_params (s : State) : (freshStart s).params = s.params := rfl
@[simp] theorem freshStart_mem (s : State) : (freshStart s).mem = [] := rfl
@[simp] theorem freshStart_pc (s : State) : (freshStart s).pc = 0 := rfl
@[simp] theorem freshStart_st (s : State) : (freshStart s).st = .running := rfl
@[simp] theorem freshStart_err (s : State) : (freshStart s).err = none := rfl
@[simp] theorem freshStart_runCount (s : State) : (freshStart s).runCount = 0 := rfl
@[simp] theorem freshStart_freeDraws (s : State) : (freshStart s).freeDraws = s.freeDraws := rfl

@[simp] theorem forgetMemory_params (s : State) : (forgetMemory s).params = s.params := rfl
@[simp] theorem forgetMemory_mem (s : State) : (forgetMemory s).mem = freeMemory s.params s.freeDraws := rfl
@[simp] theorem forgetMemory_pc (s : State) : (forgetMemory s).pc = s.pc := rfl
@[simp] theorem forgetMemory_st (s : State) : (forgetMemory s).st = s.st := rfl
@[simp] theorem forgetMemory_err (s : State) : (forgetMemory s).err = s.err := rfl
@[simp] theorem forgetMemory_runCount (s : State) : (forgetMemory s).runCount = s.runCount := rfl
@[simp] theorem forgetMemory_freeDraws (s : State) : (forgetMemory s).freeDraws = s.freeDraws + 1 := rfl

@[simp] theorem resetWith_params (p : Params) : (State.resetWith p).params = p := rfl
@[simp] theorem resetWith_mem (p : Params) : (State.resetWith p).mem = [] := rfl
@[simp] theorem resetWith_pc (p : Params) : (State.resetWith p).pc = 0 := rfl
@[simp] theorem resetWith_st (p : Params) : (State.resetWith p).st = .running := rfl
@[simp] theorem resetWith_err (p : Params) : (State.resetWith p).err = none := rfl
@[simp] theorem resetWith_runCount (p : Params) : (State.resetWith p).runCount = 0 := rfl
@[simp] theorem resetWith_freeDraws (p : Params) : (State.resetWith p).freeDraws = 0 := rfl

/-! ### countCycle -/

@[simp] theorem countCycle_params (u : Bool) (s : State) : (countCycle u s).params = s.params := by
  unfold countCycle; split <;> rfl
@[simp] theorem countCycle_mem (u : Bool) (s : State) : (countCycle u s).mem = s.mem := by
  unfold countCycle; split <;> rfl
@[simp] theorem countCycle_pc (u : Bool) (s : State) : (countCycle u s).pc = s.pc := by
  unfold countCycle; split <;> rfl
@[simp] theorem countCycle_st (u : Bool) (s : State) : (countCycle u s).st = s.st := by
  unfold countCycle; split <;> rfl
@[simp] theorem countCycle_err (u : Bool) (s : State) : (countCycle u s).err = s.err := by
  unfold countCycle; split <;> rfl
@[simp] theorem countCycle_freeDraws (u : Bool) (s : State) : (countCycle u s).freeDraws = s.freeDraws := by
  unfold countCycle; split <;> rfl

/-- Only a step under run that goes on is counted. -/
theorem countCycle_runCount (u : Bool) (s : State) :
    (countCycle u s).runCount = if u = true ∧ s.st = .running then s.runCount + 1 else s.runCount := by
  unfold countCycle
  by_cases hu : u = true <;> by_cases hs : s.st = .running <;> simp [hu, hs]

end Sys2Proof.Machine
end

