-- ==== Sys2Proof/Laws/Ops.lean ====
section
/-! SUPPORT. For each shared operation, one lemma that says everything it can do. -/

namespace Sys2Proof.Machine

theorem inRange_iff {s : State} {a : Int} : inRange s a = true ↔ 0 ≤ a ∧ a < (s.params.memCells : Int) := by
  simp only [inRange, decide_eq_true_eq]

/-- The cell at a natural address is in range exactly below N. -/
theorem inRange_natCast {s : State} {a : Nat} : inRange s (a : Int) = true ↔ a < s.params.memCells := by
  rw [inRange_iff]; omega

/-- MemRead answers the cell in range, and the fault otherwise. -/
theorem memRead_ok {s : State} {a : Int} {v : Int} :
    memRead a s = .ok v ↔ inRange s a = true ∧ Memory.get s.mem a.toNat = v := by
  unfold memRead; cases inRange s a <;> simp

/-- MemRead at a natural address, as the decoder issues it. -/
theorem memRead_natCast (a : Nat) (s : State) :
    memRead (a : Int) s =
      if a < s.params.memCells then .ok (Memory.get s.mem a) else .error (.outOfRangeAccess (a : Int)) := by
  by_cases h : a < s.params.memCells
  · rw [if_pos h, memRead, if_pos (inRange_natCast.2 h), Int.toNat_natCast]
  · rw [if_neg h, memRead, if_neg (by rw [inRange_natCast]; exact h)]

theorem memRead_error {s : State} {a : Int} {f : FaultRecord} :
    memRead a s = .error f ↔ inRange s a = false ∧ f = .outOfRangeAccess a := by
  unfold memRead; cases inRange s a <;> simp [@eq_comm _ f]

/-- MemWrite answers the state with one cell put, in range, and the fault otherwise. -/
theorem memWrite_ok {s t : State} {a : Int} {v : Int} :
    memWrite a v s = .ok t ↔ inRange s a = true ∧ t = { s with mem := Memory.put s.mem a.toNat v } := by
  unfold memWrite; cases inRange s a <;> simp [@eq_comm _ t]

theorem memWrite_error {s : State} {a : Int} {v : Int} {f : FaultRecord} :
    memWrite a v s = .error f ↔ inRange s a = false ∧ f = .outOfRangeAccess a := by
  unfold memWrite; cases inRange s a <;> simp [@eq_comm _ f]

/-- The two sources, when both can be read. -/
theorem readSources_ok {s : State} {a b : Int} {x y : Int} :
    readSources a b s = .ok (x, y) ↔
      inRange s a = true ∧ inRange s b = true ∧ Memory.get s.mem a.toNat = x ∧ Memory.get s.mem b.toNat = y := by
  unfold readSources memRead
  cases inRange s a <;> cases inRange s b <;> simp

/-- The fault of the sources: the first that is out of range. -/
theorem readSources_error {s : State} {a b : Int} {f : FaultRecord} :
    readSources a b s = .error f ↔
      (inRange s a = false ∧ f = .outOfRangeAccess a) ∨
        (inRange s a = true ∧ inRange s b = false ∧ f = .outOfRangeAccess b) := by
  unfold readSources memRead
  cases inRange s a <;> cases inRange s b <;> simp [@eq_comm _ f]

/-- What the ALU answers: the result in Cell, the overflow fault, or the wrapped result. -/
theorem aluResult_ok {p : Params} {r : Int} {pc : Nat} {v : Int} :
    aluResult p r pc = .ok v ↔
      (inCell p.cellWidth r = true ∧ v = r) ∨
        (inCell p.cellWidth r = false ∧ p.overflowPolicy = .wrap ∧ v = wrapCell p.cellWidth r) := by
  unfold aluResult
  cases inCell p.cellWidth r <;> cases p.overflowPolicy <;> simp [@eq_comm _ v]

theorem aluResult_error {p : Params} {r : Int} {pc : Nat} {f : FaultRecord} :
    aluResult p r pc = .error f ↔
      inCell p.cellWidth r = false ∧ p.overflowPolicy = .fault ∧ f = .arithmeticOverflow pc := by
  unfold aluResult
  cases inCell p.cellWidth r <;> cases p.overflowPolicy <;> simp [@eq_comm _ f]

/-- What Execute answers when it completes: both sources and the destination in range, the ALU's value in the
destination, pc past the instruction, and nothing else changed. -/
theorem arithmetic_ok {op : Int → Int → Int} {a b c : Int} {s t : State} :
    arithmetic op a b c s = .ok t ↔
      ∃ v, inRange s a = true ∧ inRange s b = true ∧ inRange s c = true ∧
        aluResult s.params (op (Memory.get s.mem a.toNat) (Memory.get s.mem b.toNat)) s.pc = .ok v ∧
        t = { s with mem := Memory.put s.mem c.toNat v, pc := s.pc + 4 } := by
  unfold arithmetic readSources memRead memWrite
  cases inRange s a <;> cases inRange s b <;> simp
  cases aluResult s.params (op (Memory.get s.mem a.toNat) (Memory.get s.mem b.toNat)) s.pc <;>
    cases inRange s c <;> simp [@eq_comm _ t, advancePc]

/-- The fault Execute answers: the first failing check of source 1, source 2, result, destination. -/
theorem arithmetic_error {op : Int → Int → Int} {a b c : Int} {s : State} {f : FaultRecord} :
    arithmetic op a b c s = .error f ↔
      (inRange s a = false ∧ f = .outOfRangeAccess a) ∨
      (inRange s a = true ∧ inRange s b = false ∧ f = .outOfRangeAccess b) ∨
      (inRange s a = true ∧ inRange s b = true ∧
        aluResult s.params (op (Memory.get s.mem a.toNat) (Memory.get s.mem b.toNat)) s.pc = .error f) ∨
      (inRange s a = true ∧ inRange s b = true ∧
        (∃ v, aluResult s.params (op (Memory.get s.mem a.toNat) (Memory.get s.mem b.toNat)) s.pc = .ok v) ∧
        inRange s c = false ∧ f = .outOfRangeAccess c) := by
  unfold arithmetic readSources memRead memWrite
  cases inRange s a <;> cases inRange s b <;> simp [@eq_comm _ f]
  cases aluResult s.params (op (Memory.get s.mem a.toNat) (Memory.get s.mem b.toNat)) s.pc <;>
    cases inRange s c <;> simp

/-- A settled step is the answered state, or the fault raised in the state it began in. -/
theorem settle_cases (r : Except FaultRecord State) (s : State) :
    (∃ t, r = .ok t ∧ settle r s = t) ∨ (∃ f, r = .error f ∧ settle r s = raise f s) := by
  cases r with
  | ok t => exact .inl ⟨t, rfl, rfl⟩
  | error f => exact .inr ⟨f, rfl, rfl⟩

end Sys2Proof.Machine
end

