-- ==== Sys2Proof/Laws/Step.lean ====
section
/-! SUPPORT. What Decode, exec and one step can do, said once. -/

namespace Sys2Proof.Machine

/-- Whether an instruction's operands and result let it complete, and the state it then leaves. -/
theorem exec_add (a b c : Int) (s : State) :
    exec (.add a b c) s = .next (settle (arithmetic (fun x y => x + y) a b c s) s) := rfl

theorem exec_mul (a b c : Int) (s : State) :
    exec (.mul a b c) s = .next (settle (arithmetic (fun x y => x * y) a b c s) s) := rfl

theorem exec_halt (s : State) : exec .halt s = .next { s with st := .halted } := rfl

/-- Every instruction answers a next state. -/
theorem exec_next (i : Instr) (s : State) : ∃ t, exec i s = .next t := by
  cases i <;> exact ⟨_, rfl⟩

/-- What decoding answers: Add or Multiply with its four cells in the array, Halt with its one cell. -/
theorem decodeAt_ok {s : State} {i : Instr} :
    decodeAt s = .ok i ↔
      s.pc < s.params.memCells ∧
        ((Memory.get s.mem s.pc = 1 ∧ s.pc + 3 < s.params.memCells ∧
            i = .add (Memory.get s.mem (s.pc + 1)) (Memory.get s.mem (s.pc + 2)) (Memory.get s.mem (s.pc + 3))) ∨
          (Memory.get s.mem s.pc = 2 ∧ s.pc + 3 < s.params.memCells ∧
            i = .mul (Memory.get s.mem (s.pc + 1)) (Memory.get s.mem (s.pc + 2)) (Memory.get s.mem (s.pc + 3))) ∨
          (Memory.get s.mem s.pc = 99 ∧ i = .halt)) := by
  unfold decodeAt decodeWith
  simp only [memRead_natCast, Nat.add_zero]
  by_cases h0 : s.pc < s.params.memCells
  case neg => simp [h0]
  by_cases hop1 : Memory.get s.mem s.pc = 1
  · by_cases h3 : s.pc + 3 < s.params.memCells
    · have h1 : s.pc + 1 < s.params.memCells := by omega
      have h2 : s.pc + 2 < s.params.memCells := by omega
      simp [h0, h1, h2, h3, hop1, @eq_comm _ _ i]
    · by_cases h1 : s.pc + 1 < s.params.memCells <;> by_cases h2 : s.pc + 2 < s.params.memCells <;>
        simp [h0, h1, h2, h3, hop1]
  by_cases hop2 : Memory.get s.mem s.pc = 2
  · by_cases h3 : s.pc + 3 < s.params.memCells
    · have h1 : s.pc + 1 < s.params.memCells := by omega
      have h2 : s.pc + 2 < s.params.memCells := by omega
      simp [h0, h1, h2, h3, hop2, @eq_comm _ _ i]
    · by_cases h1 : s.pc + 1 < s.params.memCells <;> by_cases h2 : s.pc + 2 < s.params.memCells <;>
        simp [h0, h1, h2, h3, hop2]
  by_cases hop99 : Memory.get s.mem s.pc = 99
  · simp [h0, hop99, @eq_comm _ _ i]
  · simp [h0, hop1, hop2, hop99]

/-- What one step answers when it answers a next state: the machine was running, and Decode's fault was raised,
the budget's fault was raised, or the decoded instruction was executed and counted. -/
theorem stepUnder_next {u : Bool} {s t : State} :
    stepUnder u s = .next t ↔
      s.st = .running ∧
        ((∃ f, decodeAt s = .error f ∧ t = raise f s) ∨
          (∃ i, decodeAt s = .ok i ∧
            ((∃ f, budgetFault u i s = some f ∧ t = raise f s) ∨
              (budgetFault u i s = none ∧ ∃ t', exec i s = .next t' ∧ t = countCycle u t')))) := by
  unfold stepUnder
  cases hst : s.st <;> simp
  cases hd : decodeAt s with
  | error f => simp [eq_comm]
  | ok i =>
    cases hb : budgetFault u i s with
    | some f => simp [hb, eq_comm]
    | none =>
      obtain ⟨t', ht'⟩ := exec_next i s
      simp [hb, ht', eq_comm]

/-- A running machine always has a step. -/
theorem stepUnder_running {u : Bool} {s : State} (h : s.st = .running) : ∃ t, stepUnder u s = .next t := by
  unfold stepUnder
  simp only [h]
  cases decodeAt s with
  | error f => exact ⟨_, rfl⟩
  | ok i =>
    dsimp only
    cases budgetFault u i s with
    | some f => exact ⟨_, rfl⟩
    | none =>
      obtain ⟨t', ht'⟩ := exec_next i s
      simp [ht']

/-- What the budget check answers: the fault, under run, with the budget used up, before an Add or a Multiply. -/
theorem budgetFault_some {u : Bool} {i : Instr} {s : State} {f : FaultRecord} :
    budgetFault u i s = some f ↔
      u = true ∧ isCycle i = true ∧ s.params.cycleBudget = some s.runCount ∧ f = .timeoutError s.runCount := by
  unfold budgetFault
  cases hb : s.params.cycleBudget with
  | none => simp
  | some b =>
    by_cases h : s.runCount = b
    · cases u <;> cases isCycle i <;> simp [h, eq_comm]
    · simp [h, Ne.symm h]

end Sys2Proof.Machine
end

