-- ==== Sys2Proof/Laws/HostOps.lean ====
section
/-! SUPPORT. What the host operations do with a machine in each status, said once. -/

namespace Sys2Proof.Machine

/-- A running machine's step leaves the state its step answers. -/
theorem stepResult_next {u : Bool} {s t : State} (h : stepUnder u s = .next t) : stepResult u s = t := by
  unfold stepResult; rw [h]

/-- A stopped machine's loop ends at once. -/
theorem runLoop_stopped {s : State} (h : s.st ≠ .running) (fuel : Nat) : runLoop fuel s = some s := by
  unfold runLoop
  cases hs : s.st <;> simp_all

/-- A running machine's loop takes one step and goes on. -/
theorem runLoop_running {s t : State} (h : s.st = .running) (ht : stepUnder true s = .next t) (k : Nat) :
    runLoop (k + 1) s = runLoop k t := by
  rw [runLoop, h]; simp only [stepResult_next ht]

/-- With no step left to observe, a running machine has not been seen to end. -/
theorem runLoop_zero {s : State} (h : s.st = .running) : runLoop 0 s = none := by
  rw [runLoop, h]

/-- Run on a running machine is the loop from run_count = 0. -/
theorem hostRun_running {s : State} (h : s.st = .running) (fuel : Nat) :
    hostRun fuel s = (runLoop fuel { s with runCount := 0 }).map fun t => (resultOf t, t) := by
  obtain ⟨p, m, pc, st, err, rc, fd⟩ := s
  subst h
  unfold hostRun
  dsimp only
  generalize runLoop fuel _ = r
  cases r <;> rfl

/-- Run on a FAULTED machine answers the stored fault and changes nothing. -/
theorem hostRun_faulted {s : State} (h : s.st = .faulted) (fuel : Nat) :
    hostRun fuel s = some (.error s.err, s) := by
  unfold hostRun; simp only [h]

/-- Run on a HALTED machine answers OK and zeroes the counter. -/
theorem hostRun_halted {s : State} (h : s.st = .halted) (fuel : Nat) :
    hostRun fuel s = some (.ok, { s with runCount := 0 }) := by
  unfold hostRun; simp only [h]

/-- No steps leave the state as it is. -/
@[simp] theorem stepsFrom_zero (s : State) : stepsFrom 0 s = .next s := rfl

/-- One step of any machine the host runs, and then the rest. -/
theorem core_run_next (M : Host.Core) (k : Nat) {s t : M.State} (h : M.step s = .next t) :
    M.run (k + 1) s = M.run k t := by
  rw [Host.Core.run, h]

/-- A machine with no step goes no further. -/
theorem core_run_fault (M : Host.Core) (k : Nat) {s : M.State} {f : M.Fault} (h : M.step s = .fault f) :
    M.run (k + 1) s = .fault f := by
  rw [Host.Core.run, h]

/-- One step and then the rest. -/
theorem stepsFrom_succ {s t : State} (k : Nat) (h : step s = .next t) : stepsFrom (k + 1) s = stepsFrom k t :=
  core_run_next Sys2Proof.core k h

/-- A stopped machine goes no further. -/
theorem stepsFrom_succ_stopped {s t : State} (k : Nat) (h : s.st ≠ .running) : stepsFrom (k + 1) s ≠ .next t := by
  have hstep : ∃ f, step s = .fault f := by
    unfold step stepUnder
    cases hs : s.st <;> simp_all
  obtain ⟨f, hf⟩ := hstep
  have hrun : stepsFrom (k + 1) s = .fault f := core_run_fault Sys2Proof.core k hf
  rw [hrun]
  exact nofun

/-- A whole memory load writes cell after cell from `i`: it answers the state with the memory changed, or the
fault of the first address past the array. -/
theorem loadCells_cases (program : List Int) (i : Nat) (s : State) :
    (∃ m, loadCells i program s = .ok { s with mem := m }) ∨
      (∃ j, loadCells i program s = .error (.outOfRangeAccess j)) := by
  induction program generalizing i s with
  | nil => exact .inl ⟨s.mem, rfl⟩
  | cons v rest ih =>
    rw [loadCells]
    cases hw : memWrite (i : Int) v s with
    | error f => exact .inr ⟨(i : Int), by simp [(memWrite_error.1 hw).2]⟩
    | ok t =>
      obtain ⟨-, rfl⟩ := memWrite_ok.1 hw
      exact ih (i + 1) _

/-- The overrides change memory, and st and err when an address is bad; nothing else. -/
theorem applyOverrides_frame (overrides : List (Int × Int)) (s : State) :
    ∃ m st err, applyOverrides overrides s = { s with mem := m, st := st, err := err } ∧
      (st = s.st ∧ err = s.err ∨ st = .faulted ∧ ∃ a, err = some (.outOfRangeAccess a)) := by
  induction overrides generalizing s with
  | nil => exact ⟨s.mem, s.st, s.err, rfl, .inl ⟨rfl, rfl⟩⟩
  | cons o rest ih =>
    obtain ⟨a, v⟩ := o
    rw [applyOverrides]
    cases hw : memWrite a v s with
    | error f =>
      obtain ⟨-, rfl⟩ := memWrite_error.1 hw
      exact ⟨s.mem, .faulted, _, rfl, .inr ⟨rfl, a, rfl⟩⟩
    | ok t =>
      obtain ⟨-, rfl⟩ := memWrite_ok.1 hw
      exact ih _

end Sys2Proof.Machine
end

