-- ==== Sys2Proof/Laws/PerInstr.lean ====
section
/-! SUPPORT. Facts about every instruction as syntax, one lemma per constructor. -/

namespace Sys2Proof.Laws

/-- The encoding of an instruction has its width in cells and begins with its opcode (30_encoding.md R60, R62,
R63). -/
def EncodedShape.Statement (i : Instr) : Prop :=
  (encode i).length = i.width ∧ (encode i).head? = some i.opcode ∧ i.width ≤ longestWidth

theorem EncodedShape.add (a b c : Int) : EncodedShape.Statement (.add a b c) :=
  ⟨rfl, rfl, Nat.le_refl 4⟩

theorem EncodedShape.mul (a b c : Int) : EncodedShape.Statement (.mul a b c) :=
  ⟨rfl, rfl, Nat.le_refl 4⟩

theorem EncodedShape.halt : EncodedShape.Statement .halt :=
  ⟨rfl, rfl, by decide⟩

end Sys2Proof.Laws
end

