-- ==== Sys2Proof/Tests/Slice0.lean ====
section
/-! SUPPORT. The model's own tests: the checks of WellFormed refuse an ill-formed term each, words written out from
the spec's encodings decode, a few single steps, and for every statement with hypotheses a concrete case that meets
them.  Expected values come from 30_encoding.md and 95_test_vectors.md, named at each test. -/

namespace Sys2Proof.Tests
open Sys2Proof Sys2Proof.Machine

/-! ### Small machines -/

/-- A small configuration: N cells of 8 bits, overflow faults, no budget. -/
def tiny (n : Nat) : Params := ⟨n, .bits 8, .fault, none⟩

/-- The same with wrapping. -/
def tinyWrap (n : Nat) : Params := ⟨n, .bits 8, .wrap, none⟩

/-- The same with a budget. -/
def tinyBudget (n b : Nat) : Params := ⟨n, .bits 8, .fault, some b⟩

/-- The machine after a load of `cells`. -/
def loaded (p : Params) (cells : List Int) : State :=
  { State.resetWith p with
    mem := ((List.range cells.length).zip cells).filter fun e => decide (e.2 ≠ 0) }

/-- The state an outcome answers, if it answers one. -/
def nextOf (o : Host.Outcome State Fault Refusal) : Option State :=
  match o with
  | .next t => some t
  | .fault _ => none
  | .refused _ => none

/-! ### WellFormed: an ill-formed term for each check -/

theorem test_wf_reference : Params.reference.wf = true := by decide
theorem test_wf_no_cells : (tiny 0).wf = false := by decide
theorem test_wf_no_bits : (Params.mk 4 (.bits 0) .fault none).wf = false := by decide
theorem test_wf_instr : (Instr.add 127 (-128) 0).wf (.bits 8) = true := by decide
theorem test_wf_instr_src1 : (Instr.add 128 0 0).wf (.bits 8) = false := by decide
theorem test_wf_instr_src2 : (Instr.mul 0 (-129) 0).wf (.bits 8) = false := by decide
theorem test_wf_instr_dst : (Instr.add 0 0 128).wf (.bits 8) = false := by decide
theorem test_wf_program : programWf (tiny 4) [1, 0, 0, 0] = true := by decide
theorem test_wf_program_value : programWf (tiny 4) [1, 0, 128, 0] = false := by decide
theorem test_wf_program_length : programWf (tiny 4) [1, 0, 0, 0, 99] = false := by decide
theorem test_wf_overrides_value : overridesWf (tiny 4) [(1, 12), (2, -129)] = false := by decide

/-! ### Decode: words written out from R62, R63 and R66 -/

theorem test_decode_add : decode [1, 9, 10, 3] = .ok (.add 9 10 3) := rfl
theorem test_decode_mul : decode [2, 3, 11, 0] = .ok (.mul 3 11 0) := rfl
theorem test_decode_halt : decode [99] = .ok .halt := rfl
theorem test_decode_mode_digits : decode [1001, 0, 0, 0] = .error (.invalidOpcode 1001) := rfl
theorem test_decode_empty : decode [] = .error (.missingCell 0) := rfl
theorem test_decode_cut_short : decode [2, 0, 0] = .error (.missingCell 3) := rfl

theorem test_table_add : decodeTableWord 64 1 = some (.add 0 0 0) := by decide
theorem test_table_mul :
    decodeTableWord 256 (2 + 3 * 2 ^ 64 + 11 * 2 ^ 128 + 0 * 2 ^ 192) = some (.mul 3 11 0) := by decide
theorem test_table_halt : decodeTableWord 64 99 = some .halt := by decide
theorem test_table_illegal : decodeTableWord 64 (2 ^ 64 - 1) = none := by decide

theorem test_fetch_word_add :
    nextOf (step (State.reset.withFetchWord 64 1)) = some { State.reset with mem := [(0, 2)], pc := 4, runCount := 1 } := by
  decide
theorem test_fetch_word_halt :
    (nextOf (step (State.reset.withFetchWord 64 99))).map State.st = some .halted := by decide

/-- Listing of R70, program P6 of 95_test_vectors.md with one raw cell. -/
theorem test_assemble : assemble [.instr (.add 0 0 0), .data (-7), .instr .halt] = [1, 0, 0, 0, -7, 99] := rfl

/-! ### One step each: 95_test_vectors.md VA3, VA8, VM6, VM10, VH1, VH3 -/

/-- VA8: a destination in its own opcode cell does not change the running Add. -/
theorem test_add_over_itself :
    nextOf (step (loaded (tiny 12) [1, 0, 0, 0, 99])) =
      some { loaded (tiny 12) [2, 0, 0, 0, 99] with pc := 4, runCount := 1 } := by decide

/-- VA3 at W = 8: 127 + 1 overflows under FAULT, with no write. -/
theorem test_add_overflow :
    nextOf (step (loaded (tiny 12) [1, 5, 6, 7, 99, 127, 1])) =
      some (raise (.arithmeticOverflow 0) (loaded (tiny 12) [1, 5, 6, 7, 99, 127, 1])) := by decide

/-- VM6 at W = 8: 16 * 8 = 128 wraps to -128. -/
theorem test_mul_wraps :
    (nextOf (step (loaded (tinyWrap 12) [2, 5, 6, 7, 99, 16, 8]))).map (fun t => Memory.get t.mem 7) =
      some (-128) := by decide

/-- VM10 at W = 8: -64 * 2 = -128 is in range. -/
theorem test_mul_bottom_of_range :
    (nextOf (step (loaded (tiny 12) [2, 5, 6, 7, 99, -64, 2]))).map (fun t => Memory.get t.mem 7) =
      some (-128) := by decide

/-- VH1: the step that finds Halt leaves pc. -/
theorem test_halt_step :
    nextOf (step (loaded (tiny 12) [99])) = some { loaded (tiny 12) [99] with st := .halted } := by decide

/-- VH3: cycle on Halt. -/
theorem test_halt_cycle :
    hostCycle (loaded (tiny 12) [99]) =
      (.error (some (.cycleWhenHalted 0)), raise (.cycleWhenHalted 0) (loaded (tiny 12) [99])) := by decide

/-- VF2: the overflow is checked before the destination. -/
theorem test_priority_overflow_first :
    (nextOf (step (loaded (tiny 12) [2, 4, 4, 100, 99]))).bind State.err = some (.arithmeticOverflow 0) := by decide

/-- VO2 at N = 12: the later pair wins, and the pair after the failure is not applied. -/
theorem test_init_partial :
    (nextOf (hostInit [(1, 3), (1, 4), (100, 1), (2, 9)] (loaded (tiny 12) [1, 0, 0, 0, 99]))).map
      (fun t => (t.err, Memory.get t.mem 1, Memory.get t.mem 2)) =
      some (some (.outOfRangeAccess 100), 4, 0) := by decide

/-- VO1: a load that does not fit. -/
theorem test_load_too_long :
    (nextOf (hostLoad [1, 0, 0, 0, 99] (State.resetWith (tiny 4)))).bind State.err = some (.outOfRangeAccess 4) := by
  decide

/-- R152 tie-break, by hand from R101: on `1,0,0,0,99` a candidate leaves M[noun] + M[verb] in cell 0, so (1, 2) and
(2, 1) both give 1 + 2 = 3, and the earlier pair is the answer. -/
theorem test_search_first_of_two :
    searchPairs [(0, 0), (1, 2), (2, 1)] [1, 0, 0, 0, 99] 3 (State.resetWith (tiny 12)) = .found 102 := by decide

/-! ### Witnesses: the hypotheses of each statement are met, clause by clause -/

theorem witness_StoredEncodingIsFetched :
    (Memory.wf (State.resetWith (tiny 4)).mem = true ∧ 0 + (Instr.add 3 3 (-1)).width ≤ 4) ∧
    decodeAt (loaded (tiny 4) [2, 0, 0, 3]) = .ok (.mul 0 0 3) ∧ decodeAt (loaded (tiny 1) [99]) = .ok .halt := by
  exact ⟨⟨by decide, by decide⟩, rfl, rfl⟩

theorem witness_IllegalOpcodeIsFatal :
    let s := loaded (tiny 1) [3]
    s.st = .running ∧ s.pc < s.params.memCells ∧
      Memory.get s.mem s.pc ≠ 1 ∧ Memory.get s.mem s.pc ≠ 2 ∧ Memory.get s.mem s.pc ≠ 99 := by decide

theorem witness_ReadOfOneCell :
    let s := loaded (tiny 4) [5]
    ((0 : Int) ≤ 0 ∧ (3 : Int) < s.params.memCells) ∧ ((-1 : Int) < 0 ∧ (s.params.memCells : Int) ≤ 4) ∧
    nextOf (.next s) = some s := by decide

theorem witness_WriteOfOneCell :
    let s := loaded (tiny 4) [5]
    Memory.wf s.mem = true ∧ ((0 : Int) ≤ 3 ∧ (3 : Int) < s.params.memCells) ∧
      ((-1 : Int) < 0 ∧ (s.params.memCells : Int) ≤ 4) := by decide

theorem witness_CanonicalMemoryIsItsContents :
    Memory.wf [(0, 5), (2, -1)] = true ∧ Memory.wf (Memory.put [(2, -1)] 0 5) = true ∧
      ∀ a, Memory.get [(0, 5), (2, -1)] a = Memory.get (Memory.put [(2, -1)] 0 5) a :=
  ⟨by decide, by decide, fun _ => rfl⟩

theorem witness_WrapIsTwosComplement : (1 : Nat) ≤ 1 ∧ wrapCell (.bits 1) 1 = -1 := by decide

theorem witness_AluResultByPolicy :
    ((tiny 4).wf = true ∧ inCell (.bits 8) 127 = true) ∧
    (inCell (.bits 8) 128 = false ∧ (tiny 4).overflowPolicy = .fault) ∧
    ((tinyWrap 4).wf = true ∧ (tinyWrap 4).cellWidth = .bits 8 ∧ inCell (.bits 8) (-129) = false ∧
      (tinyWrap 4).overflowPolicy = .wrap) ∧
    ((Params.mk 4 .unbounded .fault none).wf = true ∧ (Params.mk 4 .unbounded .fault none).cellWidth = .unbounded) ∧
    ((-(2 ^ 63) - 1 : Int) < -(2 ^ 63) ∧ (2 ^ 63 - 1 : Int) < 2 ^ 63) := by decide

/-- The clauses of AddStoresTheSum, in a machine of 8 cells holding 127, 1 and -1 in cells 4, 5 and 6, at the ends
of the address range. -/
theorem witness_AddStoresTheSum :
    let s := loaded (tiny 8) [1, 4, 5, 7, 127, 1, -1]
    let w := loaded (tinyWrap 8) [1, 4, 5, 7, 127, 1, -1]
    ((-1 : Int) < 0 ∧ (s.params.memCells : Int) ≤ 8) ∧
    ((0 : Int) ≤ 0 ∧ (7 : Int) < s.params.memCells) ∧
    (inCell s.params.cellWidth (Memory.get s.mem 4 + Memory.get s.mem 5) = false ∧
      s.params.overflowPolicy = .fault) ∧
    (inCell s.params.cellWidth (Memory.get s.mem 4 + Memory.get s.mem 6) = true) ∧
    (inCell w.params.cellWidth (Memory.get w.mem 4 + Memory.get w.mem 5) = false ∧
      w.params.overflowPolicy = .wrap) := by decide

/-- The clauses of MultiplyStoresTheProduct, with 127, 2 and -1. -/
theorem witness_MultiplyStoresTheProduct :
    let s := loaded (tiny 8) [2, 4, 5, 7, 127, 2, -1]
    let w := loaded (tinyWrap 8) [2, 4, 5, 7, 127, 2, -1]
    ((-1 : Int) < 0 ∧ (s.params.memCells : Int) ≤ 8) ∧
    ((0 : Int) ≤ 0 ∧ (7 : Int) < s.params.memCells) ∧
    (inCell s.params.cellWidth (Memory.get s.mem 4 * Memory.get s.mem 5) = false ∧
      s.params.overflowPolicy = .fault) ∧
    (inCell s.params.cellWidth (Memory.get s.mem 4 * Memory.get s.mem 6) = true) ∧
    (inCell w.params.cellWidth (Memory.get w.mem 4 * Memory.get w.mem 5) = false ∧
      w.params.overflowPolicy = .wrap) := by decide

/-- Both branches of ArithmeticFrame: an Add that completes and a Multiply that raises. -/
theorem witness_ArithmeticFrame :
    (∃ t, exec (.add 4 6 7) (loaded (tiny 8) [1, 4, 6, 7, 127, 1, -1]) = .next t ∧ t.st = .running) ∧
    (∃ t, exec (.mul 4 8 7) (loaded (tiny 8) [1, 4, 6, 7, 127, 1, -1]) = .next t ∧ t.st = .faulted) :=
  ⟨⟨_, rfl, by decide⟩, ⟨_, rfl, by decide⟩⟩

theorem witness_HaltStopsInPlace :
    let s := { loaded (tiny 5) [1, 0, 0, 0, 99] with pc := 4 }
    s.st = .running ∧ s.pc < s.params.memCells ∧ Memory.get s.mem s.pc = 99 := by decide

theorem witness_StepRunsTheDecodedInstruction :
    decodeAt (loaded (tiny 8) [7]) = .error (.invalidOpcode 7 0) ∧
    decodeAt (loaded (tiny 8) [99]) = .ok .halt ∧
    decodeAt (loaded (tinyBudget 8 0) [1, 0, 0, 0]) = .ok (.add 0 0 0) ∧
    (loaded (tinyBudget 8 0) [1, 0, 0, 0]).params.cycleBudget = some (loaded (tinyBudget 8 0) [1, 0, 0, 0]).runCount ∧
    decodeAt (loaded (tinyBudget 8 1) [2, 0, 0, 0]) = .ok (.mul 0 0 0) ∧
    (loaded (tinyBudget 8 1) [2, 0, 0, 0]).params.cycleBudget ≠ some (loaded (tinyBudget 8 1) [2, 0, 0, 0]).runCount ∧
    (loaded (tiny 8) [7]).st = .running :=
  ⟨rfl, rfl, rfl, rfl, rfl, by decide, rfl⟩

/-- A HALTED machine and a FAULTED one, for every statement about stopped machines. -/
theorem witness_StoppedCoreHasNoStep :
    ({ loaded (tiny 4) [99] with st := .halted } : State).st = .halted ∧
    (raise (.invalidOpcode 0 0) (loaded (tiny 4) [0])).st = .faulted ∧
    hostRun 1 { loaded (tiny 4) [99] with st := .halted } =
      some (.ok, { loaded (tiny 4) [99] with st := .halted }) ∧
    programWf (tiny 4) [99] = true := by
  exact ⟨rfl, rfl, rfl, by decide⟩

theorem witness_RunIsRepeatedStep :
    (loaded (tiny 4) [99]).st = .running ∧
    hostRun 1 (loaded (tiny 4) [99]) = some (.ok, { loaded (tiny 4) [99] with st := .halted }) ∧
    hostRun 1 (loaded (tiny 4) [0]) =
      some (.error (some (.invalidOpcode 0 0)), raise (.invalidOpcode 0 0) (loaded (tiny 4) [0])) := by decide

theorem witness_CycleIsOneInstruction :
    decodeAt (loaded (tiny 4) [99]) = .ok .halt ∧ decodeAt (loaded (tiny 3) [1, 0, 0]) = .error (.outOfRangeAccess 3) ∧
    decodeAt (loaded (tiny 4) [1, 0, 0, 0]) = .ok (.add 0 0 0) ∧ (loaded (tiny 4) [1, 0, 0, 0]).st = .running ∧
    (hostCycle { loaded (tinyBudget 4 0) [1, 0, 0, 0] with st := .faulted, err := some (.timeoutError 0) }).2.err =
      some (.timeoutError 0) :=
  ⟨rfl, rfl, rfl, rfl, rfl⟩

theorem witness_HaltedIsAQuery :
    hostHalted (loaded (tiny 4) [0]) = .error (.invalidOpcode 0 0) ∧ (loaded (tiny 4) [0]).st = .running ∧
    hostRun 1 (loaded (tiny 4) [99]) = some (.ok, { loaded (tiny 4) [99] with st := .halted }) ∧
    (tiny 1).wf = true :=
  ⟨rfl, rfl, rfl, by decide⟩

theorem witness_BudgetBoundsARun :
    decodeAt (loaded (tinyBudget 8 0) [1, 0, 0, 0]) = .ok (.add 0 0 0) ∧
    decodeAt (loaded (tinyBudget 8 0) [99]) = .ok .halt ∧
    (hostRun 2 (loaded (tinyBudget 8 1) [1, 0, 0, 0, 2, 0, 0, 0])).map (fun x => (x.2.err, x.2.runCount)) =
      some (some (.timeoutError 1), 1) ∧
    (loaded (tinyBudget 8 0) [1, 0, 0, 0]).err = none ∧
    (∃ t, stepUnder false (loaded (tinyBudget 8 0) [1, 0, 0, 0]) = .next t) :=
  ⟨rfl, rfl, by decide, rfl, ⟨_, rfl⟩⟩

theorem witness_PcAdvancesByFourOrStays :
    (∃ t, stepUnder true (loaded (tiny 4) [1, 0, 0, 0]) = .next t ∧ t.st = .running) ∧
    (∃ t, stepUnder true (loaded (tiny 4) [99]) = .next t ∧ t.st ≠ .running) :=
  ⟨⟨_, rfl, by decide⟩, ⟨_, rfl, by decide⟩⟩

theorem witness_EveryRunEnds :
    ((loaded (tiny 8) [1, 0, 0, 0, 1]).params.memCells - (loaded (tiny 8) [1, 0, 0, 0, 1]).pc) / 4 + 1 ≤ 3 ∧
    (hostRun 3 (loaded (tiny 8) [1, 0, 0, 0, 1])).map (fun x => x.2.err) = some (some (.outOfRangeAccess 8)) := by
  decide

theorem witness_RunEndsHaltedOrFaulted :
    (loaded (tiny 4) [99]).st = .running ∧ (loaded (tiny 4) [99]).err = none ∧
    (hostRun 1 (loaded (tiny 4) [99])).isSome = true ∧ (hostRun 1 (loaded (tiny 4) [0])).isSome = true := by decide

/-- A straight-line program of one Add under a budget of exactly 1, wrapping so that no overflow is raised. -/
theorem witness_StraightLineTakesOneCycleEach :
    let s := loaded ⟨5, .bits 8, .wrap, some 1⟩ [1, 0, 0, 0, 99]
    (s.st = .running ∧ s.pc = 0 ∧ s.params.cycleBudget = some 1 ∧ 4 * 1 < s.params.memCells ∧
      Memory.get s.mem (4 * 0) = 1 ∧ Memory.get s.mem (4 * 1) = 99 ∧
      (∀ d ∈ [1, 2, 3], 0 ≤ Memory.get s.mem (4 * 0 + d) ∧ Memory.get s.mem (4 * 0 + d) < s.params.memCells) ∧
      Memory.get s.mem (4 * 0 + 3) < 4 * (0 : Int) + 4) ∧
    ∀ fuel r t a, hostRun fuel s = some (r, t) → t.err ≠ some (.arithmeticOverflow a) := by
  refine ⟨by decide, ?_⟩
  intro fuel r t a h
  have hrun : ∀ k, hostRun (k + 2) (loaded ⟨5, .bits 8, .wrap, some 1⟩ [1, 0, 0, 0, 99]) =
      some (.ok, { loaded ⟨5, .bits 8, .wrap, some 1⟩ [2, 0, 0, 0, 99] with pc := 4, st := .halted, runCount := 1 }) := by
    intro k; cases k <;> rfl
  match fuel with
  | 0 => exact nomatch h
  | 1 => exact nomatch h
  | k + 2 =>
    rw [hrun k] at h
    injection h with h
    injection h with _ h
    subst h
    exact nofun

theorem witness_CycleMatchesStepUnderRun :
    decodeAt (loaded (tiny 4) [2, 0, 0, 0]) = .ok (.mul 0 0 0) ∧ (loaded (tiny 4) [2, 0, 0, 0]).st = .running ∧
    (loaded (tiny 4) [2, 0, 0, 0]).params.cycleBudget ≠ some 0 :=
  ⟨rfl, rfl, by decide⟩

theorem witness_RaiseSetsStatusAndRecord :
    (hostRun 1 (loaded (tiny 4) [0])).map (fun x => x.2.st) = some .faulted ∧
    (hostCycle (loaded (tiny 4) [0])).2.st = .faulted := by decide

theorem witness_StepFaultsArePrecise :
    ∃ t, stepUnder true (loaded (tiny 8) [1, 0, 0, 8]) = .next t ∧ t.st = .faulted :=
  ⟨_, rfl, by decide⟩

/-- Each check of R124's list in turn is the first to fail, and one case where none does. -/
theorem witness_FirstFailingCheckIsRaised :
    firstFailingCheck true { loaded (tiny 4) [1] with pc := 4 } = some (.outOfRangeAccess 4) ∧
    firstFailingCheck true (loaded (tiny 4) [7, 9, 9, 9]) = some (.invalidOpcode 7 0) ∧
    firstFailingCheck true (loaded (tiny 1) [1]) = some (.outOfRangeAccess 1) ∧
    firstFailingCheck true (loaded (tiny 2) [1]) = some (.outOfRangeAccess 2) ∧
    firstFailingCheck true (loaded (tiny 3) [1]) = some (.outOfRangeAccess 3) ∧
    firstFailingCheck true (loaded (tinyBudget 4 0) [1, -1, -1, -1]) = some (.timeoutError 0) ∧
    firstFailingCheck false (loaded (tinyBudget 4 0) [1, -1, 4, 4]) = some (.outOfRangeAccess (-1)) ∧
    firstFailingCheck true (loaded (tiny 4) [1, 0, 4, -1]) = some (.outOfRangeAccess 4) ∧
    firstFailingCheck true (loaded (tiny 5) [2, 4, 4, -1, 99]) = some (.arithmeticOverflow 0) ∧
    firstFailingCheck true (loaded (tiny 4) [1, 0, 0, 4]) = some (.outOfRangeAccess 4) ∧
    firstFailingCheck true (loaded (tiny 4) [1, 0, 0, 3]) = none ∧
    (loaded (tiny 1) [99]).st = .running ∧ Memory.get (loaded (tiny 1) [99]).mem 0 = 99 ∧
    Memory.get (loaded (tiny 4) [1, 0, 0, 3]).mem 0 ≠ 99 := by decide

theorem witness_FaultedIsTerminal :
    (raise (.invalidOpcode 0 0) (loaded (tiny 4) [0])).st = .faulted ∧ programWf (tiny 4) [99, 0, 0, 0] = true := by
  decide

theorem witness_ResetValues :
    programWf (tiny 4) [1, 0, 0, 99] = true ∧
    nextOf (hostLoad [1, 0, 0, 99] (State.resetWith (tiny 4))) = some (loaded (tiny 4) [1, 0, 0, 99]) ∧
    hostReset (State.resetWith (tiny 4)) = State.resetWith (tiny 4) ∧ (tiny 1).wf = true := by decide

theorem witness_StepKeepsInvariant :
    State.Inv (loaded (tiny 4) [1, 0, 0, 3]) ∧ (∃ t, step (loaded (tiny 4) [1, 0, 0, 3]) = .next t) ∧
    State.Inv (loaded (tiny 4) [99]) ∧ (∃ t, step (loaded (tiny 4) [99]) = .next t) :=
  ⟨by decide, ⟨_, rfl⟩, by decide, ⟨_, rfl⟩⟩

theorem witness_HostOperationsKeepInvariant :
    State.Inv (loaded (tiny 4) [1, 0, 0, 3]) ∧
    (∃ t, hostLoad [99, 1, 2, 3, 4] (loaded (tiny 4) [1, 0, 0, 3]) = .next t ∧ t.st = .faulted) ∧
    (∃ t, hostInit [(3, 0), (4, 1)] (loaded (tiny 4) [1, 0, 0, 3]) = .next t ∧ t.st = .faulted) ∧
    (hostRun 2 (loaded (tiny 4) [1, 0, 0, 3])).isSome = true :=
  ⟨by decide, ⟨_, rfl, rfl⟩, ⟨_, rfl, rfl⟩, by decide⟩

theorem witness_ReachableStatesMeetInvariant :
    (tiny 4).wf = true ∧ Reachable (tiny 4) (loaded (tiny 4) [99]) :=
  ⟨by decide, .byLoad (program := [99]) .powerOn rfl⟩

theorem witness_TopOfMemory :
    ((loaded (tiny 4) []).st = .running ∧ (tiny 4).memCells ≤ ({ loaded (tiny 4) [] with pc := 4 } : State).pc) ∧
    (Memory.get (loaded (tiny 3) [1]).mem 0 = 1 ∧ (tiny 3).memCells ≤ 0 + 3) ∧
    (Memory.get (loaded (tiny 1) [2]).mem 0 = 2 ∧ 0 < (tiny 1).memCells) ∧
    (Memory.get (loaded (tiny 1) [99]).mem 0 = 99 ∧ 0 + 1 = (tiny 1).memCells) := by decide

theorem witness_StepWritesOnlyTheDestination :
    ∃ t, stepUnder true (loaded (tiny 4) [1, 0, 0, 3]) = .next t ∧
      Memory.get t.mem 3 ≠ Memory.get (loaded (tiny 4) [1, 0, 0, 3]).mem 3 :=
  ⟨_, rfl, by decide⟩

/-- The rows of RequestsOfAStep: Halt, pc past the array, a missing operand cell, completion, overflow, budget, a bad
source. -/
theorem witness_RequestsOfAStep :
    Memory.get (loaded (tiny 1) [99]).mem 0 ≠ 1 ∧
    (tiny 4).memCells ≤ ({ loaded (tiny 4) [] with pc := 4 } : State).pc ∧
    (Memory.get (loaded (tiny 3) [2]).mem 0 = 2 ∧
      stepRequests true (loaded (tiny 3) [2]) = [.read 0, .read 1, .read 2, .read 3]) ∧
    (∃ t, stepUnder true (loaded (tiny 4) [1, 0, 0, 3]) = .next t ∧ t.st = .running) ∧
    (∃ t, stepUnder true (loaded (tiny 5) [2, 4, 4, 0, 99]) = .next t ∧
      t.err = some (.arithmeticOverflow 0) ∧ t.st = .faulted) ∧
    (∃ t, stepUnder true (loaded (tinyBudget 4 0) [1, 0, 0, 3]) = .next t ∧
      t.err = some (.timeoutError 0) ∧ t.st = .faulted) ∧
    stepUnder true (loaded (tiny 4) [1, 4, 0, 3]) =
      .next (raise (.outOfRangeAccess 4) (loaded (tiny 4) [1, 4, 0, 3])) ∧
    stepRequests true (loaded (tiny 4) [1, 4, 0, 3]) = [.read 0, .read 1, .read 2, .read 3] ++ [.read 4] :=
  ⟨by decide, by decide, by decide, ⟨_, rfl, by decide⟩, ⟨_, rfl, by decide, by decide⟩,
    ⟨_, rfl, by decide, by decide⟩, rfl, by decide⟩

/-- Two memories that agree on what the step reads, cells 0 to 3, and differ in cell 4. -/
theorem witness_StepDependsOnlyOnItsReads :
    let s := loaded (tiny 5) [1, 0, 0, 3, 9]
    let m := Memory.put s.mem 4 7
    (∃ t, stepUnder true s = .next t ∧ t.st = .running) ∧
    (∀ r ∈ stepRequests true s, Memory.get m r.addr.toNat = Memory.get s.mem r.addr.toNat) ∧
    Memory.wf s.mem = true ∧ Memory.wf m = true ∧ Request.write 3 2 ∈ stepRequests true s :=
  ⟨⟨_, rfl, by decide⟩, by decide, by decide, by decide, by decide⟩

/-- The opcodes an Add may write into the next opcode cell: 99, 3, 1, and 2 in R52's own vector. -/
theorem witness_WritesAreSeenByTheNextDecode :
    (∃ t, step (loaded (tiny 8) [1, 5, 6, 4, 0, 90, 9]) = .next t ∧ t.st = .running ∧ Memory.get t.mem 4 = 99) ∧
    (∃ t, step (loaded (tiny 8) [1, 5, 6, 4, 0, 1, 2]) = .next t ∧ t.st = .running ∧ Memory.get t.mem 4 = 3) ∧
    (∃ t, step (loaded (tiny 8) [1, 5, 6, 4, 0, 1, 0]) = .next t ∧ t.st = .running ∧ Memory.get t.mem 4 = 1) ∧
    (∃ t, step (loaded (tiny 9) [1, 1, 1, 4, 99, 5, 6, 0, 99]) = .next t ∧ t.st = .running ∧
      Memory.get t.mem 4 = 2) ∧
    Memory.wf (loaded (tiny 9) [1, 1, 1, 4, 99, 5, 6, 0, 99]).mem = true ∧
    Memory.get (loaded (tiny 9) [1, 1, 1, 4, 99, 5, 6, 0, 99]).mem (0 + 3) = 0 + 4 ∧ 0 + 7 < (tiny 8).memCells :=
  ⟨⟨_, rfl, by decide, by decide⟩, ⟨_, rfl, by decide, by decide⟩, ⟨_, rfl, by decide, by decide⟩,
    ⟨_, rfl, by decide, by decide⟩, by decide, by decide, by decide⟩

/-- R52's own vector: the Add writes 2 into cell 4, and the next decode answers the Multiply. -/
theorem test_self_modifying_decode :
    (nextOf (step (loaded (tiny 9) [1, 1, 1, 4, 99, 5, 6, 0, 99]))).map decodeAt = some (.ok (.mul 5 6 0)) := rfl

theorem witness_MemoryLoadOverwritesAPrefix :
    (Memory.wf (loaded (tiny 4) [9, 9, 9, 9]).mem = true ∧ [(1 : Int), 0, 0, 3].length ≤ (tiny 4).memCells) ∧
    (tiny 4).memCells < [(1 : Int), 0, 0, 3, 9].length ∧
    (nextOf (hostLoad [127, -128] (loaded (tiny 4) []))).isSome = true := by decide

theorem witness_LoadStartsAProgram :
    [(1 : Int), 0, 0, 127].all (inCell (tiny 4).cellWidth) = true ∧ [(1 : Int), 0, 0, 127].length ≤ (tiny 4).memCells ∧
    [(1 : Int), 0, 0, 127, -128].all (inCell (tiny 4).cellWidth) = true ∧
    (tiny 4).memCells < [(1 : Int), 0, 0, 127, -128].length := by decide

theorem witness_LoadResetLoadIsLoad :
    programWf (tiny 4) [99] = true ∧ (∃ t, hostLoad [99] (loaded (tiny 4) [1, 2, 3, 4]) = .next t) ∧
    (loaded (tiny 4) [1, 2, 3, 4]).params = (State.resetWith (tiny 4)).params ∧
    (loaded (tiny 4) [1, 2, 3, 4]).freeDraws = (State.resetWith (tiny 4)).freeDraws :=
  ⟨by decide, ⟨_, rfl⟩, rfl, rfl⟩

theorem witness_InitWritesInOrder :
    let s := loaded (tiny 4) [1, 0, 0, 3]
    Memory.wf s.mem = true ∧ s.st = .running ∧ overridesWf s.params [(0, 5), (3, 0), (0, 6)] = true ∧
    (∀ o ∈ [((0 : Int), (5 : Int)), (3, 0), (0, 6)], 0 ≤ o.1 ∧ o.1 < s.params.memCells) ∧
    overridesWf s.params ([(3, 1)] ++ (4, 5) :: [(0, 6)]) = true ∧ (s.params.memCells : Int) ≤ 4 ∧ (-1 : Int) < 0 := by
  decide

theorem witness_InitNeedsARunningMachine :
    ({ loaded (tiny 4) [99] with st := .halted } : State).st ≠ .running ∧
    (raise (.invalidOpcode 0 0) (loaded (tiny 4) [0])).st ≠ .running ∧
    (loaded (tiny 4) [99]).st = .running ∧ overridesWf (tiny 4) [(1, 127), (2, -128)] = true := by decide

/-- A value one above Cell in a program that fits and in one that does not, and one below it in an override list. -/
theorem witness_ValuesOutsideCellAreRefused :
    ((128 : Int) ∈ [(1 : Int), 128] ∧ (128 : Int) ∈ [(1 : Int), 0, 0, 0, 128] ∧
      inCell (tiny 4).cellWidth 128 = false) ∧
    (loaded (tiny 4) [99]).st = .running ∧ overridesWf (tiny 4) [(1, 127), (2, -129)] = false := by decide

theorem witness_PeekReadsOneCell :
    ((0 : Int) ≤ 0 ∧ (3 : Int) < ((tiny 4).memCells : Int)) ∧ ((-1 : Int) < 0 ∧ ((tiny 4).memCells : Int) ≤ 4) := by
  decide

/-- Program P5 of 95_test_vectors.md: the protocol's four operations all answer. -/
theorem witness_PartOneProtocol :
    ∃ t u w, hostLoad [1, 0, 0, 0, 99, 0, 0, 0, 0, 0, 0, 0, 5] (State.resetWith (tiny 16)) = .next t ∧
      hostInit [(1, 12), (2, 2)] t = .next u ∧ hostRun 2 u = some (.ok, w) ∧ hostPeek 0 w = .ok 7 :=
  ⟨_, _, _, rfl, rfl, rfl, rfl⟩

/-- On `1,0,0,0,99` the pair (0, 0) gives 1 + 1 = 2 with nothing before it, and a program of `0` gives an error. -/
theorem witness_SearchFindsTheFirstPair :
    search [1, 0, 0, 0, 99] 2 (State.resetWith (tiny 12)) = .found 0 ∧
    candidate [1, 0, 0, 0, 99] 0 1 (State.resetWith (tiny 12)) = .value 1 ∧
    search [0] 2 (State.resetWith (tiny 12)) = .error (some (.invalidOpcode 0 0)) := by
  exact ⟨rfl, rfl, rfl⟩

end Sys2Proof.Tests
end

section
/-! The invariant holds at reset (10_state.md R24, R32, R33), for every well-formed configuration. -/

namespace Sys2Proof.Machine

/-- How reset, power-on and a taken load establish the invariant: they leave a running machine without a fault at
pc = 0, so of the invariant only the parameters and the memory are left to show. -/
theorem State.inv_of_fresh_start {s : State} (hparams : s.params.wf = true) (hmem : s.MemoryOk)
    (hpc : s.pc = 0) (hst : s.st = .running) (herr : s.err = none) : s.Inv := by
  have hpcOk : s.PcOk := by simp [State.PcOk, hpc]
  have hhaltOk : s.HaltOk := by simp [State.HaltOk, hst]
  have herrOk : s.ErrOk := by simp [State.ErrOk, hst, herr]
  exact ⟨hparams, hmem, hpcOk, hhaltOk, herrOk⟩

/-- The memory in which every cell reads as 0 is canonical and within every configuration's bounds. -/
theorem resetWith_memoryOk (p : Params) : (State.resetWith p).MemoryOk := ⟨rfl, rfl⟩

theorem resetWith_inv {p : Params} (h : p.wf = true) : (State.resetWith p).Inv :=
  State.inv_of_fresh_start h (resetWith_memoryOk p) rfl rfl rfl

/-- Settles O32: the host's core resets to the reference configuration by definition, that configuration is well
formed, and reset meets the invariant in every well-formed one. -/
theorem resetStateMeetsInvariant : Obligations.ResetStateMeetsInvariant := by
  have hreference : Params.reference.wf = true := by decide
  exact ⟨rfl, resetWith_inv hreference, fun _ => resetWith_inv⟩

end Sys2Proof.Machine
end

section
/-! The two access primitives of the memory array (20_memory.md R41, R42), at every integer address. -/

namespace Sys2Proof.Machine

/-- R9's `in_range` fails below the array and from its end on, nowhere else. -/
theorem inRange_eq_false_iff {s : State} {a : Int} :
    inRange s a = false ↔ a < 0 ∨ (s.params.memCells : Int) ≤ a := by
  rw [← Bool.not_eq_true, inRange_iff]; omega

/-- Settles O6: the address is in range, where MemRead answers the cell, or outside it, where MemRead raises. -/
theorem readOfOneCell : Obligations.ReadOfOneCell := by
  intro s a
  constructor
  · intro hlow hhigh
    exact memRead_ok.2 ⟨inRange_iff.2 ⟨hlow, hhigh⟩, rfl⟩
  · intro hout
    exact memRead_error.2 ⟨inRange_eq_false_iff.2 hout, rfl⟩

/-- Settles O7: the memory MemWrite answers is `Memory.put`'s, which reads back the value in its cell
(`Memory.get_put`) and every other cell as before (`Memory.get_put_other`). -/
theorem writeOfOneCell : Obligations.WriteOfOneCell := by
  intro s a v hwf
  constructor
  · intro hlow hhigh
    refine ⟨Memory.put s.mem a.toNat v, memWrite_ok.2 ⟨inRange_iff.2 ⟨hlow, hhigh⟩, rfl⟩, ?_, ?_⟩
    · rw [Memory.get_put hwf, if_pos rfl]
    · intro b hb
      have hother : b ≠ a.toNat := by omega
      exact Memory.get_put_other v hother
  · intro hout
    exact memWrite_error.2 ⟨inRange_eq_false_iff.2 hout, rfl⟩

end Sys2Proof.Machine
end

section
/-! Decoding (30_encoding.md R62 to R68): the decoder over any reader answers an instruction exactly when the reader
answers that instruction's cells. -/

namespace Sys2Proof

/-- The reader may be a list of cells or the memory array; the cells are those of the encoding, numbered from 0. -/
theorem decodeWith_ok {ε : Type} {read : Nat → Except ε Int} {illegal : Int → ε} {i : Instr} :
    decodeWith read illegal = .ok i ↔ ∀ e ∈ (encode i).zipIdx, read e.2 = .ok e.1 := by
  constructor
  · intro h
    unfold decodeWith at h
    cases h0 : read 0 with
    | error e => simp [h0] at h
    | ok op =>
      by_cases harith : op = 1 ∨ op = 2
      · cases h1 : read 1 with
        | error e => simp [h0, harith, h1] at h
        | ok a =>
          cases h2 : read 2 with
          | error e => simp [h0, harith, h1, h2] at h
          | ok b =>
            cases h3 : read 3 with
            | error e => simp [h0, harith, h1, h2, h3] at h
            | ok c =>
              obtain rfl | rfl := harith
              · obtain rfl : Instr.add a b c = i := by simpa [h0, h1, h2, h3] using h
                simp [encode, h0, h1, h2, h3]
              · obtain rfl : Instr.mul a b c = i := by simpa [h0, h1, h2, h3] using h
                simp [encode, h0, h1, h2, h3]
      · by_cases hhalt : op = 99
        · obtain rfl : Instr.halt = i := by simpa [h0, hhalt] using h
          simp [encode, h0, hhalt]
        · simp [h0, harith, hhalt] at h
  · intro h
    cases i <;> simp_all [encode, decodeWith]

theorem cellAt_ok {cells : List Int} {k : Nat} {v : Int} : cellAt cells k = .ok v ↔ cells[k]? = some v := by
  unfold cellAt
  cases cells[k]? <;> simp

/-- A list begins with `l` just when it holds each entry of `l` at that entry's place. -/
theorem isPrefix_iff_zipIdx {l cells : List Int} :
    l <+: cells ↔ ∀ e ∈ l.zipIdx, cells[e.2]? = some e.1 := by
  rw [List.prefix_iff_getElem?]
  constructor
  · rintro h ⟨v, k⟩ he
    have hcell : l[k]? = some v := List.mem_zipIdx_iff_getElem?.1 he
    obtain ⟨hk, rfl⟩ := List.getElem?_eq_some_iff.1 hcell
    exact h k hk
  · intro h k hk
    exact h (l[k], k) (List.mem_zipIdx_iff_getElem?.2 (List.getElem?_eq_getElem hk))

/-- Settles O2: to decode as `i` and to begin with the cells of `i` both say that the list holds each cell of the
encoding at its place. -/
theorem decodingInvertsEncoding : Obligations.DecodingInvertsEncoding := by
  intro cells i
  rw [decode, decodeWith_ok, isPrefix_iff_zipIdx]
  simp only [cellAt_ok]

end Sys2Proof
end

section
/-! What the decoder answers at pc (30_encoding.md R66), and its faults as a step and as a cycle (R67). -/

namespace Sys2Proof.Machine

/-- Settles O4, check by check: the fetch, the opcode, and the operand cells in turn. -/
theorem decodeReadsInOrder : Obligations.DecodeReadsInOrder := by
  intro s
  unfold decodeAt decodeWith
  simp only [memRead_natCast, Nat.add_zero, ← Nat.not_lt, ite_not]
  by_cases h0 : s.pc < s.params.memCells
  case neg => simp [h0]
  by_cases harith : Memory.get s.mem s.pc = 1 ∨ Memory.get s.mem s.pc = 2
  · by_cases h1 : s.pc + 1 < s.params.memCells
    case neg => simp [h0, h1, harith]
    by_cases h2 : s.pc + 2 < s.params.memCells
    case neg => simp [h0, h1, h2, harith]
    by_cases h3 : s.pc + 3 < s.params.memCells
    case neg => simp [h0, h1, h2, h3, harith]
    obtain hop | hop := harith <;> simp [h0, h1, h2, h3, hop]
  · by_cases hhalt : Memory.get s.mem s.pc = 99 <;> simp [h0, harith, hhalt]

/-- R67: an opcode in the array other than 1, 2 and 99 is InvalidOpcode. -/
theorem decodeAt_illegal {s : State} (hpc : s.pc < s.params.memCells) (h1 : Memory.get s.mem s.pc ≠ 1)
    (h2 : Memory.get s.mem s.pc ≠ 2) (h99 : Memory.get s.mem s.pc ≠ 99) :
    decodeAt s = .error (.invalidOpcode (Memory.get s.mem s.pc) s.pc) := by
  rw [decodeReadsInOrder s, if_neg (Nat.not_le.2 hpc), if_neg (not_or.2 ⟨h1, h2⟩), if_neg h99]

/-- A step whose decode fails raises that fault, under run or not. -/
theorem stepUnder_of_decodeAt_error (u : Bool) {s : State} {f : FaultRecord} (hst : s.st = .running)
    (hd : decodeAt s = .error f) : stepUnder u s = .next (raise f s) :=
  stepUnder_next.2 ⟨hst, .inl ⟨f, hd, rfl⟩⟩

/-- The host's cycle raises the decode fault itself and returns it. -/
theorem hostCycle_of_decodeAt_error {s : State} {f : FaultRecord} (hst : s.st = .running)
    (hd : decodeAt s = .error f) : hostCycle s = (.error (some f), raise f s) := by
  simp only [hostCycle, hst, hd, failWith]

/-- Settles O5: the decoder answers InvalidOpcode, which a step and a cycle raise as they do every decode fault. -/
theorem illegalOpcodeIsFatal : Obligations.IllegalOpcodeIsFatal := by
  intro s hst hpc h1 h2 h99
  have hd := decodeAt_illegal hpc h1 h2 h99
  exact ⟨stepUnder_of_decodeAt_error true hst hd, hostCycle_of_decodeAt_error hst hd⟩

end Sys2Proof.Machine
end

section
/-! Loading a program that fits, and the reset values (10_state.md R32; 70_reset_and_hazards.md R140, R143, R144). -/

namespace Sys2Proof.Machine

/-- R143, from any cell on: a sequence that fits in the array stands there afterwards, and every other cell is as it
was. -/
theorem loadCells_fits {i : Nat} {program : List Int} {s : State} (hwf : Memory.wf s.mem = true)
    (hfits : i + program.length ≤ s.params.memCells) :
    ∃ m, loadCells i program s = .ok { s with mem := m } ∧ Memory.wf m = true ∧
      (∀ a, a < i ∨ i + program.length ≤ a → Memory.get m a = Memory.get s.mem a) ∧
      ∀ k, k < program.length → Memory.get m (i + k) = program.getD k 0 := by
  induction program generalizing i s with
  | nil => exact ⟨s.mem, rfl, hwf, fun _ _ => rfl, fun k hk => absurd hk (Nat.not_lt_zero k)⟩
  | cons v rest ih =>
    rw [List.length_cons] at hfits
    have hwrite : memWrite (i : Int) v s = .ok { s with mem := Memory.put s.mem i v } :=
      memWrite_ok.2 ⟨inRange_natCast.2 (by omega), rfl⟩
    obtain ⟨m, hload, hm, hother, hcells⟩ :=
      ih (i := i + 1) (s := { s with mem := Memory.put s.mem i v }) (Memory.put_wf i v hwf) (by simpa using by omega)
    refine ⟨m, by rw [loadCells, hwrite]; exact hload, hm, fun a ha => ?_, fun k hk => ?_⟩
    · rw [List.length_cons] at ha
      rw [hother a (by omega)]
      exact Memory.get_put_other v (by omega)
    · cases k with
      | zero =>
        rw [Nat.add_zero, hother i (by omega)]
        simpa using Memory.get_put hwf i i v
      | succ k =>
        rw [List.length_cons, Nat.succ_lt_succ_iff] at hk
        simpa [Nat.add_assoc, Nat.add_comm 1] using hcells k hk

/-- R144 for a well-formed program: the fresh start, with the program's cells from 0 on and 0 after them. -/
theorem hostLoad_of_programWf {s : State} {program : List Int} (h : programWf s.params program = true) :
    ∃ m, hostLoad program s = .next { freshStart s with mem := m } ∧ ∀ a, Memory.get m a = program.getD a 0 := by
  obtain ⟨hcell, hlen⟩ :
      (∀ v ∈ program, inCell s.params.cellWidth v = true) ∧ program.length ≤ s.params.memCells := by
    simpa [programWf] using h
  have hfind : program.find? (fun v => !inCell s.params.cellWidth v) = none := by
    simpa using hcell
  obtain ⟨m, hload, -, hother, hcells⟩ :=
    loadCells_fits (i := 0) (program := program) (s := freshStart s) rfl (by simpa using hlen)
  refine ⟨m, by rw [hostLoad, hfind]; simp only [hload], fun a => ?_⟩
  by_cases ha : a < program.length
  · simpa using hcells a ha
  · rw [hother a (by omega), List.getD_eq_default _ _ (by omega)]
    rfl

/-- A run whose first step raises ends there, in that state and with that error. -/
theorem hostRun_raises {s : State} {f : FaultRecord} (hst : s.st = .running) (hcount : s.runCount = 0)
    (hstep : stepUnder true s = .next (raise f s)) (fuel : Nat) :
    hostRun (fuel + 1) s = some (.error (some f), raise f s) := by
  have hzero : { s with runCount := 0 } = s := by rw [← hcount]
  have hstopped : (raise f s).st ≠ .running := by simp
  rw [hostRun_running hst, hzero, runLoop_running hst hstep, runLoop_stopped hstopped]
  rfl

/-- R32's derived sentence: the 0 at pc is an illegal opcode, and N is at least 1 (R5), so that it is fetched. -/
theorem hostRun_resetWith {p : Params} (h : p.wf = true) (fuel : Nat) :
    hostRun (fuel + 1) (State.resetWith p) =
      some (.error (some (.invalidOpcode 0 0)), raise (.invalidOpcode 0 0) (State.resetWith p)) := by
  have hpc : 0 < p.memCells := by
    simp only [Params.wf, Bool.and_eq_true, decide_eq_true_eq] at h
    exact h.1
  have hd : decodeAt (State.resetWith p) = .error (.invalidOpcode 0 0) :=
    decodeAt_illegal hpc (by simp) (by simp) (by simp)
  exact hostRun_raises rfl rfl (stepUnder_of_decodeAt_error true rfl hd) fuel

/-- Settles O31: power-on and reset leave the empty memory, a load that fits is `hostLoad_of_programWf`, and a run on
a reset machine ends at its first decode. -/
theorem resetValues : Obligations.ResetValues := by
  refine ⟨?_, ?_, fun p fuel h => hostRun_resetWith h fuel⟩
  · rintro s p (rfl | ⟨s', rfl⟩) <;> exact ⟨Memory.get_nil, rfl, rfl, rfl, rfl⟩
  · intro s t program h hload
    obtain ⟨m, hnext, hcells⟩ := hostLoad_of_programWf h
    obtain rfl : { freshStart s with mem := m } = t := by simpa [hnext] using hload
    exact ⟨hcells, rfl, rfl, rfl, rfl⟩

end Sys2Proof.Machine
end

section
/-! The memory requests of a step (20_memory.md R54, R55): each way a step can end, with the requests it has issued
by then. -/

namespace Sys2Proof.Machine

/-! ### Requests and reads in general -/

/-- R54: the memory answers OUT_OF_RANGE exactly to an address outside the array, for a read and a write alike. -/
theorem serve_outOfRange {r : Request} {s : State} :
    (serve r s).1 = .outOfRange ↔ inRange s r.addr = false := by
  cases r with
  | read a => cases h : inRange s a <;> simp [serve, memRead, Request.addr, h]
  | write a v => cases h : inRange s a <;> simp [serve, memWrite, Request.addr, h]

theorem issueReads_answered {addrs : List Int} {s : State} (h : ∀ a ∈ addrs, inRange s a = true) :
    issueReads addrs s = addrs.map .read := by
  induction addrs with
  | nil => rfl
  | cons a rest ih =>
    obtain ⟨ha, hrest⟩ := List.forall_mem_cons.1 h
    rw [issueReads, if_pos ha, ih hrest, List.map_cons]

/-- The reads go as far as the first address outside the array, which is the last one read. -/
theorem issueReads_stops {before rest : List Int} {a : Int} {s : State} (h : ∀ x ∈ before, inRange s x = true)
    (ha : inRange s a = false) : issueReads (before ++ a :: rest) s = before.map .read ++ [.read a] := by
  induction before with
  | nil => simp [issueReads, ha]
  | cons x before ih =>
    obtain ⟨hx, hbefore⟩ := List.forall_mem_cons.1 h
    rw [List.cons_append, issueReads, if_pos hx, ih hbefore, List.map_cons, List.cons_append]

/-! ### The row of R55's table for an Add or a Multiply at pc -/

/-- The operand cell `k` places after the opcode cell. -/
def operand (s : State) (k : Nat) : Int := Memory.get s.mem (s.pc + k)

/-- The addresses Decode reads for an Add or a Multiply. -/
def fetchAddrs (s : State) : List Int := [s.pc, s.pc + 1, s.pc + 2, s.pc + 3]

/-- The reads of the two sources that the operand cells name. -/
def sourceRequests (s : State) : List Request :=
  [.read (operand s 1), .read (operand s 2)]

/-- The write of `v` to the destination that the operand cell names. -/
def destinationRequest (s : State) (v : Int) : Request := .write (operand s 3) v

/-- The whole row, with `v` as the value written. -/
def requestRow (s : State) (v : Int) : List Request :=
  (fetchAddrs s).map .read ++ (sourceRequests s ++ [destinationRequest s v])

/-- The exact operation of opcode 1, and otherwise that of opcode 2. -/
def opcodeOperation (op : Int) : Int → Int → Int := fun x y => if op = 1 then x + y else x * y

/-- What the ALU answers in the Add or the Multiply at pc. -/
def aluAnswer (s : State) : Except FaultRecord Int :=
  aluResult s.params (opcodeOperation (Memory.get s.mem s.pc) (Memory.get s.mem (operand s 1).toNat)
    (Memory.get s.mem (operand s 2).toNat)) s.pc

/-- `Execute` of the Add or the Multiply at pc. -/
def executeAtPc (s : State) : Except FaultRecord State :=
  arithmetic (opcodeOperation (Memory.get s.mem s.pc)) (operand s 1) (operand s 2) (operand s 3) s

/-- The requests of Execute for the Add or the Multiply at pc. -/
def executeRequestsAtPc (s : State) : List Request :=
  executeRequests (opcodeOperation (Memory.get s.mem s.pc)) (operand s 1) (operand s 2) (operand s 3) s

/-- Opcode 1 and opcode 2 decode to an instruction that executes, and issues requests, as its own exact operation
does on the three operand cells. -/
theorem decodeAt_operands {s : State} (hpc : s.pc + 3 < s.params.memCells)
    (hop : Memory.get s.mem s.pc = 1 ∨ Memory.get s.mem s.pc = 2) :
    ∃ i, decodeAt s = .ok i ∧ exec i s = .next (settle (executeAtPc s) s) ∧
      instrRequests i s = executeRequestsAtPc s := by
  unfold executeAtPc executeRequestsAtPc
  have hpc0 : s.pc < s.params.memCells := by omega
  rcases hop with h1 | h2
  · refine ⟨_, decodeAt_ok.2 ⟨hpc0, .inl ⟨h1, hpc, rfl⟩⟩, ?_⟩
    rw [h1]
    exact ⟨rfl, rfl⟩
  · refine ⟨_, decodeAt_ok.2 ⟨hpc0, .inr (.inl ⟨h2, hpc, rfl⟩)⟩, ?_⟩
    rw [h2]
    exact ⟨rfl, rfl⟩

/-! ### The requests of Decode -/

theorem decodeRequests_of_noOperands {s : State}
    (h : s.params.memCells ≤ s.pc ∨ (Memory.get s.mem s.pc ≠ 1 ∧ Memory.get s.mem s.pc ≠ 2)) :
    decodeRequests s = [.read s.pc] := by
  rw [decodeRequests, memRead_natCast]
  split_ifs with hpc
  · simp [h.resolve_left (Nat.not_le.2 hpc)]
  · rfl

/-- Decode reads the four cells in turn; where pc is past the array, the first of them ends it. -/
theorem decodeRequests_of_operands {s : State}
    (h : s.params.memCells ≤ s.pc ∨ Memory.get s.mem s.pc = 1 ∨ Memory.get s.mem s.pc = 2) :
    decodeRequests s = issueReads (fetchAddrs s) s := by
  by_cases hpc : s.pc < s.params.memCells
  · rw [decodeRequests, memRead_natCast, if_pos hpc]
    exact if_pos (h.resolve_left (Nat.not_le.2 hpc))
  · have hout : inRange s s.pc = false := inRange_eq_false_iff.2 (by omega)
    rw [decodeRequests_of_noOperands (.inl (Nat.not_lt.1 hpc)), fetchAddrs, issueReads, hout]
    rfl

theorem fetchAddrs_inRange {s : State} (hpc : s.pc + 3 < s.params.memCells) :
    ∀ a ∈ fetchAddrs s, inRange s a = true := by
  simp [fetchAddrs, inRange_iff]
  omega

/-- A fetch cut short stops at the first cell past the array, which is the one Decode's fault names. -/
theorem fetch_stops {s : State} (hpc : s.params.memCells ≤ s.pc + 3)
    (h : s.params.memCells ≤ s.pc ∨ Memory.get s.mem s.pc = 1 ∨ Memory.get s.mem s.pc = 2) :
    ∃ before a rest, fetchAddrs s = before ++ a :: rest ∧ (∀ x ∈ before, inRange s x = true) ∧
      inRange s a = false ∧ decodeAt s = .error (.outOfRangeAccess a) := by
  have hd := decodeReadsInOrder s
  by_cases h0 : s.params.memCells ≤ s.pc
  · rw [if_pos h0] at hd
    exact ⟨[], _, _, rfl, by simp, inRange_eq_false_iff.2 (by omega), hd⟩
  rw [if_neg h0, if_pos (h.resolve_left h0)] at hd
  by_cases h1 : s.params.memCells ≤ s.pc + 1
  · rw [if_pos h1] at hd
    exact ⟨[s.pc], _, _, rfl, by simp [inRange_iff]; omega, inRange_eq_false_iff.2 (by omega), hd⟩
  rw [if_neg h1] at hd
  by_cases h2 : s.params.memCells ≤ s.pc + 2
  · rw [if_pos h2] at hd
    exact ⟨[s.pc, s.pc + 1], _, _, rfl, by simp [inRange_iff]; omega, inRange_eq_false_iff.2 (by omega), hd⟩
  · rw [if_neg h2, if_pos hpc] at hd
    exact ⟨[s.pc, s.pc + 1, s.pc + 2], _, _, rfl, by simp [inRange_iff]; omega,
      inRange_eq_false_iff.2 (by omega), hd⟩

/-! ### The requests of Execute -/

theorem executeRequestsAtPc_of_source_error {s : State} {f : FaultRecord}
    (h : readSources (operand s 1) (operand s 2) s = .error f) :
    executeRequestsAtPc s = issueReads [operand s 1, operand s 2] s := by
  simp only [executeRequestsAtPc, executeRequests, h]

theorem executeRequestsAtPc_of_alu_error {s : State} {f : FaultRecord} (ha : inRange s (operand s 1) = true)
    (hb : inRange s (operand s 2) = true) (halu : aluAnswer s = .error f) :
    executeRequestsAtPc s = sourceRequests s := by
  rw [aluAnswer] at halu
  simp only [executeRequestsAtPc, executeRequests, readSources_ok.2 ⟨ha, hb, rfl, rfl⟩, halu, sourceRequests]

theorem executeRequestsAtPc_of_alu_ok {s : State} {v : Int} (ha : inRange s (operand s 1) = true)
    (hb : inRange s (operand s 2) = true) (halu : aluAnswer s = .ok v) :
    executeRequestsAtPc s = sourceRequests s ++ [destinationRequest s v] := by
  rw [aluAnswer] at halu
  simp only [executeRequestsAtPc, executeRequests, readSources_ok.2 ⟨ha, hb, rfl, rfl⟩, halu]
  rfl

/-! ### The requests of a step, by what becomes of the decoded instruction -/

theorem stepRequests_of_decodeAt_error (u : Bool) {s : State} {f : FaultRecord} (hst : s.st = .running)
    (hd : decodeAt s = .error f) : stepRequests u s = decodeRequests s := by
  simp only [stepRequests, hst, hd]

theorem stepRequests_of_budgetFault {u : Bool} {s : State} {i : Instr} {f : FaultRecord} (hst : s.st = .running)
    (hd : decodeAt s = .ok i) (hb : budgetFault u i s = some f) : stepRequests u s = decodeRequests s := by
  simp only [stepRequests, hst, hd, hb]

theorem stepRequests_of_exec {u : Bool} {s : State} {i : Instr} (hst : s.st = .running)
    (hd : decodeAt s = .ok i) (hb : budgetFault u i s = none) :
    stepRequests u s = decodeRequests s ++ instrRequests i s := by
  simp only [stepRequests, hst, hd, hb]

theorem stepRequests_of_not_running {u : Bool} {s : State} (hst : s.st ≠ .running) : stepRequests u s = [] := by
  unfold stepRequests
  cases h : s.st with
  | running => exact absurd h hst
  | halted => rfl
  | faulted => rfl

/-- Halt is no cycle, so no budget stops it (R85). -/
theorem budgetFault_halt (u : Bool) (s : State) : budgetFault u .halt s = none := by
  cases hb : budgetFault u .halt s with
  | none => rfl
  | some f => simpa [isCycle] using budgetFault_some.1 hb

/-- Whether Decode fails or answers Halt, a step that needs no operand cell reads pc and no more. -/
theorem stepRequests_of_noOperands (u : Bool) {s : State} (hst : s.st = .running)
    (h : s.params.memCells ≤ s.pc ∨ (Memory.get s.mem s.pc ≠ 1 ∧ Memory.get s.mem s.pc ≠ 2)) :
    stepRequests u s = [.read s.pc] := by
  rw [← decodeRequests_of_noOperands h]
  cases hd : decodeAt s with
  | error f => exact stepRequests_of_decodeAt_error u hst hd
  | ok i =>
    obtain ⟨hpc, ⟨h1, -⟩ | ⟨h2, -⟩ | ⟨-, rfl⟩⟩ := decodeAt_ok.1 hd
    · omega
    · omega
    · rw [stepRequests_of_exec hst hd (budgetFault_halt u s), instrRequests, List.append_nil]

/-! ### The ways a step can end -/

/-- What a running machine's step from `s` to `t` has requested, by the way it ends. -/
inductive StepTrace (s : State) (requests : List Request) (t : State) : Prop
  /-- A Halt or an illegal opcode: pc alone is read. -/
  | opcodeOnly (hpc : s.pc < s.params.memCells) (h1 : Memory.get s.mem s.pc ≠ 1) (h2 : Memory.get s.mem s.pc ≠ 2)
      (hrequests : requests = [.read s.pc])
      (hend : t.st = .halted ∨ t = raise (.invalidOpcode (Memory.get s.mem s.pc) s.pc) s)
  /-- An access outside the array: the row up to it, each earlier request in range. -/
  | badAccess (before : List Request) (last : Request) (v : Int) (hrequests : requests = before ++ [last])
      (hprefix : before ++ [last] <+: requestRow s v)
      (hwrite : destinationRequest s v ∈ before ++ [last] → aluAnswer s = .ok v)
      (hbefore : ∀ r ∈ before, inRange s r.addr = true) (hlast : inRange s last.addr = false)
      (hend : t = raise (.outOfRangeAccess last.addr) s)
  /-- The budget used up: Decode's four reads. -/
  | timeout (hrequests : requests = (fetchAddrs s).map .read) (hrange : ∀ r ∈ requests, inRange s r.addr = true)
      (hend : t = raise (.timeoutError s.runCount) s)
  /-- An overflow: the row up to the write. -/
  | overflow (hrequests : requests = (fetchAddrs s).map .read ++ sourceRequests s)
      (hrange : ∀ r ∈ requests, inRange s r.addr = true) (hend : t = raise (.arithmeticOverflow s.pc) s)
  /-- A completed Add or Multiply: the whole row. -/
  | completed (v : Int) (hrequests : requests = requestRow s v) (hrange : ∀ r ∈ requests, inRange s r.addr = true)
      (halu : aluAnswer s = .ok v) (hst : t.st = .running)
      (hmem : memWrite (operand s 3) v s = .ok { s with mem := t.mem })

theorem stepUnder_of_exec {u : Bool} {s t : State} {i : Instr} (hst : s.st = .running) (hd : decodeAt s = .ok i)
    (hb : budgetFault u i s = none) (hexec : exec i s = .next t) : stepUnder u s = .next (countCycle u t) :=
  stepUnder_next.2 ⟨hst, .inr ⟨i, hd, .inr ⟨hb, t, hexec, rfl⟩⟩⟩

/-- A step that raised is not counted as a cycle. -/
theorem countCycle_raise (u : Bool) (f : FaultRecord) (s : State) : countCycle u (raise f s) = raise f s := by
  simp [countCycle]

/-- A fetched Halt stops the machine and a fetched illegal opcode is raised. -/
theorem stepTrace_of_noOperands {u : Bool} {s t : State} (ht : stepUnder u s = .next t)
    (hpc : s.pc < s.params.memCells) (h1 : Memory.get s.mem s.pc ≠ 1) (h2 : Memory.get s.mem s.pc ≠ 2) :
    StepTrace s (stepRequests u s) t := by
  have hst : s.st = .running := (stepUnder_next.1 ht).1
  refine .opcodeOnly hpc h1 h2 (stepRequests_of_noOperands u hst (.inr ⟨h1, h2⟩)) ?_
  by_cases h99 : Memory.get s.mem s.pc = 99
  · have hd : decodeAt s = .ok .halt := decodeAt_ok.2 ⟨hpc, .inr (.inr ⟨h99, rfl⟩)⟩
    have hstep := stepUnder_of_exec hst hd (budgetFault_halt u s) (exec_halt s)
    obtain rfl := Host.Outcome.next.inj (hstep.symm.trans ht)
    exact .inl (countCycle_st u _)
  · have hstep := stepUnder_of_decodeAt_error u hst (decodeAt_illegal hpc h1 h2 h99)
    exact .inr (Host.Outcome.next.inj (ht.symm.trans hstep))

/-- Past the array, or with an operand cell past it, the step raises at the first missing cell. -/
theorem stepTrace_of_short_fetch {u : Bool} {s t : State} (ht : stepUnder u s = .next t)
    (hpc : s.params.memCells ≤ s.pc + 3)
    (h : s.params.memCells ≤ s.pc ∨ Memory.get s.mem s.pc = 1 ∨ Memory.get s.mem s.pc = 2) :
    StepTrace s (stepRequests u s) t := by
  have hst : s.st = .running := (stepUnder_next.1 ht).1
  obtain ⟨before, a, rest, hrow, hbefore, ha, hd⟩ := fetch_stops hpc h
  have hstep := stepUnder_of_decodeAt_error u hst hd
  refine .badAccess (before.map .read) (.read a) 0 ?_ ?_ ?_ ?_ ha (Host.Outcome.next.inj (ht.symm.trans hstep))
  · rw [stepRequests_of_decodeAt_error u hst hd, decodeRequests_of_operands h, hrow, issueReads_stops hbefore ha]
  · simp [requestRow, hrow]
  · simp [destinationRequest]
  · simpa [Request.addr] using hbefore

/-- With the four cells in the array, the step goes as Execute's checks do: source 1, source 2, result,
destination. -/
theorem stepTrace_of_execute (u : Bool) {s : State} (hst : s.st = .running) (hpc : s.pc + 3 < s.params.memCells) :
    StepTrace s ((fetchAddrs s).map .read ++ executeRequestsAtPc s) (countCycle u (settle (executeAtPc s) s)) := by
  have hfetch : ∀ r ∈ (fetchAddrs s).map Request.read, inRange s r.addr = true := by
    simpa [Request.addr] using fetchAddrs_inRange hpc
  have hsources (ha : inRange s (operand s 1) = true) (hb : inRange s (operand s 2) = true) :
      ∀ r ∈ (fetchAddrs s).map Request.read ++ sourceRequests s, inRange s r.addr = true :=
    List.forall_mem_append.2 ⟨hfetch, by simp [sourceRequests, Request.addr, ha, hb]⟩
  obtain ⟨t, hexecute, hsettle⟩ | ⟨f, hexecute, hsettle⟩ := settle_cases (executeAtPc s) s
  · obtain ⟨v, ha, hb, hc, halu, rfl⟩ := arithmetic_ok.1 hexecute
    rw [hsettle, executeRequestsAtPc_of_alu_ok ha hb halu]
    refine .completed v rfl ?_ halu (by simpa using hst) (memWrite_ok.2 ⟨hc, by simp⟩)
    rw [← List.append_assoc]
    exact List.forall_mem_append.2 ⟨hsources ha hb, by simpa [destinationRequest, Request.addr] using hc⟩
  · rw [hsettle, countCycle_raise]
    rcases arithmetic_error.1 hexecute with
      ⟨ha, rfl⟩ | ⟨ha, hb, rfl⟩ | ⟨ha, hb, halu⟩ | ⟨ha, hb, ⟨v, halu⟩, hc, rfl⟩
    · have hreads : executeRequestsAtPc s = [.read (operand s 1)] :=
        (executeRequestsAtPc_of_source_error (readSources_error.2 (.inl ⟨ha, rfl⟩))).trans
          (issueReads_stops (before := []) (by simp) ha)
      refine .badAccess _ _ 0 (congrArg _ hreads) ?_ ?_ hfetch ha rfl
      · simp [requestRow, sourceRequests]
      · simp [destinationRequest]
    · have hreads : executeRequestsAtPc s = [.read (operand s 1)] ++ [.read (operand s 2)] :=
        (executeRequestsAtPc_of_source_error (readSources_error.2 (.inr ⟨ha, hb, rfl⟩))).trans
          (issueReads_stops (before := [operand s 1]) (by simpa using ha) hb)
      refine .badAccess ((fetchAddrs s).map .read ++ [.read (operand s 1)]) (.read (operand s 2)) 0 ?_ ?_ ?_ ?_ hb rfl
      · rw [hreads, List.append_assoc]
      · simp [requestRow, sourceRequests]
      · simp [destinationRequest]
      · exact List.forall_mem_append.2 ⟨hfetch, by simpa [Request.addr] using ha⟩
    · rw [executeRequestsAtPc_of_alu_error ha hb halu]
      obtain ⟨-, -, rfl⟩ := aluResult_error.1 halu
      exact .overflow rfl (hsources ha hb) rfl
    · rw [executeRequestsAtPc_of_alu_ok ha hb halu]
      refine .badAccess ((fetchAddrs s).map .read ++ sourceRequests s) (destinationRequest s v) v ?_ ?_ ?_
        (hsources ha hb) hc rfl
      · rw [List.append_assoc]
      · rw [List.append_assoc, requestRow]
      · exact fun _ => halu

/-- Every step that answers a next state ends in one of the ways of `StepTrace`. -/
theorem stepTrace {u : Bool} {s t : State} (ht : stepUnder u s = .next t) : StepTrace s (stepRequests u s) t := by
  by_cases hoperands : s.params.memCells ≤ s.pc ∨ Memory.get s.mem s.pc = 1 ∨ Memory.get s.mem s.pc = 2
  case neg =>
    obtain ⟨hpc, h1, h2⟩ := by simpa only [not_or, Nat.not_le] using hoperands
    exact stepTrace_of_noOperands ht hpc h1 h2
  by_cases hpc : s.params.memCells ≤ s.pc + 3
  · exact stepTrace_of_short_fetch ht hpc hoperands
  have hpc : s.pc + 3 < s.params.memCells := Nat.not_le.1 hpc
  have hst : s.st = .running := (stepUnder_next.1 ht).1
  have hdecode : decodeRequests s = (fetchAddrs s).map .read := by
    rw [decodeRequests_of_operands hoperands, issueReads_answered (fetchAddrs_inRange hpc)]
  obtain ⟨i, hd, hexec, hrequests⟩ := decodeAt_operands hpc (hoperands.resolve_left (by omega))
  cases hb : budgetFault u i s with
  | some f =>
    obtain ⟨-, -, -, rfl⟩ := budgetFault_some.1 hb
    have hstep : stepUnder u s = .next (raise (.timeoutError s.runCount) s) :=
      stepUnder_next.2 ⟨hst, .inr ⟨i, hd, .inl ⟨_, hb, rfl⟩⟩⟩
    rw [stepRequests_of_budgetFault hst hd hb, hdecode]
    refine .timeout rfl ?_ (Host.Outcome.next.inj (ht.symm.trans hstep))
    simpa [Request.addr] using fetchAddrs_inRange hpc
  | none =>
    obtain rfl := Host.Outcome.next.inj ((stepUnder_of_exec hst hd hb hexec).symm.trans ht)
    rw [stepRequests_of_exec hst hd hb, hdecode, hrequests]
    exact stepTrace_of_execute u hst hpc

/-! ### What every way of ending has in common -/

/-- However early the step is cut short, it has gone along the table's row. -/
theorem StepTrace.isPrefix_row {s t : State} {requests : List Request} (h : StepTrace s requests t)
    (hop : Memory.get s.mem s.pc = 1 ∨ Memory.get s.mem s.pc = 2) :
    ∃ v, requests <+: requestRow s v ∧ (destinationRequest s v ∈ requests → aluAnswer s = .ok v) := by
  cases h with
  | opcodeOnly hpc h1 h2 => omega
  | badAccess before last v hrequests hprefix hwrite =>
    subst hrequests
    exact ⟨v, hprefix, hwrite⟩
  | timeout hrequests => exact ⟨0, by simp [hrequests, requestRow], by simp [hrequests, destinationRequest]⟩
  | overflow hrequests =>
    exact ⟨0, by simp [hrequests, requestRow], by simp [hrequests, destinationRequest, sourceRequests]⟩
  | completed v hrequests hrange halu => exact ⟨v, by rw [hrequests], fun _ => halu⟩

/-- A step after which the machine still runs is a completed Add or Multiply. -/
theorem StepTrace.row_of_running {s t : State} {requests : List Request} (h : StepTrace s requests t)
    (hst : t.st = .running) :
    ∃ v, requests = requestRow s v ∧ memWrite (operand s 3) v s = .ok { s with mem := t.mem } := by
  cases h with
  | opcodeOnly hpc h1 h2 hrequests hend => rcases hend with hend | hend <;> simp [hend] at hst
  | badAccess before last v hrequests hprefix hwrite hbefore hlast hend => simp [hend] at hst
  | timeout hrequests hrange hend => simp [hend] at hst
  | overflow hrequests hrange hend => simp [hend] at hst
  | completed v hrequests hrange halu _ hmem => exact ⟨v, hrequests, hmem⟩

/-- The record of R122 tells an overflow, and a used-up budget, from the other ways to fault. -/
theorem StepTrace.requests_of_record {s t : State} {requests : List Request} (h : StepTrace s requests t)
    (hst : t.st = .faulted) :
    (t.err = some (.arithmeticOverflow s.pc) → requests = (fetchAddrs s).map .read ++ sourceRequests s) ∧
      ∀ b, t.err = some (.timeoutError b) → requests = (fetchAddrs s).map .read := by
  cases h with
  | opcodeOnly hpc h1 h2 hrequests hend =>
    rcases hend with hend | rfl
    · simp [hend] at hst
    · simp
  | badAccess before last v hrequests hprefix hwrite hbefore hlast hend => simp [hend]
  | timeout hrequests hrange hend => simp [hend, hrequests]
  | overflow hrequests hrange hend => simp [hend, hrequests]
  | completed v hrequests hrange halu hrunning => simp [hrunning] at hst

/-- Either the step raises OutOfRangeAccess at its last request and at no earlier one, or every request is in range
and it raises no OutOfRangeAccess. -/
theorem StepTrace.outOfRange_only_last {s t : State} {requests : List Request} (h : StepTrace s requests t) :
    (∃ before last, requests = before ++ [last] ∧ (∀ r ∈ before, inRange s r.addr = true) ∧
      inRange s last.addr = false ∧ t = raise (.outOfRangeAccess last.addr) s) ∨
    ((∀ r ∈ requests, inRange s r.addr = true) ∧ ∀ a, t ≠ raise (.outOfRangeAccess a) s) := by
  have hne {f : FaultRecord} {a : Int} (hf : f ≠ .outOfRangeAccess a) : raise f s ≠ raise (.outOfRangeAccess a) s :=
    fun heq => hf (Option.some.inj (congrArg State.err heq))
  cases h with
  | opcodeOnly hpc h1 h2 hrequests hend =>
    refine .inr ⟨by simpa [hrequests, Request.addr] using inRange_natCast.2 hpc, fun a => ?_⟩
    rcases hend with hend | rfl
    · rintro rfl
      simp at hend
    · exact hne nofun
  | badAccess before last v hrequests hprefix hwrite hbefore hlast hend =>
    exact .inl ⟨before, last, hrequests, hbefore, hlast, hend⟩
  | timeout hrequests hrange hend =>
    subst hend
    exact .inr ⟨hrange, fun a => hne nofun⟩
  | overflow hrequests hrange hend =>
    subst hend
    exact .inr ⟨hrange, fun a => hne nofun⟩
  | completed v hrequests hrange halu hst =>
    refine .inr ⟨hrange, fun a => ?_⟩
    rintro rfl
    simp at hst

/-- Only the last request of a step can be outside the array. -/
theorem StepTrace.inRange_of_not_last {s t : State} {requests before : List Request} {last : Request}
    (h : StepTrace s requests t) (hrequests : requests = before ++ [last]) :
    ∀ r ∈ before, inRange s r.addr = true := by
  intro r hr
  obtain ⟨before', last', hrequests', hbefore, -, -⟩ | ⟨hrange, -⟩ := h.outOfRange_only_last
  · obtain ⟨rfl, -⟩ := List.append_inj' (hrequests.symm.trans hrequests') rfl
    exact hbefore r hr
  · exact hrange r (by simp [hrequests, hr])

/-- A step's last request decides whether it raises OutOfRangeAccess, and at which address. -/
theorem StepTrace.raises_outOfRange_iff {s t : State} {requests : List Request} (h : StepTrace s requests t)
    (a : Int) :
    t = raise (.outOfRangeAccess a) s ↔
      ∃ before last, requests = before ++ [last] ∧ last.addr = a ∧ inRange s last.addr = false := by
  obtain ⟨before, last, hrequests, -, hlast, rfl⟩ | ⟨hrange, hne⟩ := h.outOfRange_only_last
  · constructor
    · intro heq
      have haddr : last.addr = a := by simpa using congrArg State.err heq
      exact ⟨before, last, hrequests, haddr, hlast⟩
    · rintro ⟨before', last', hrequests', rfl, -⟩
      obtain ⟨-, hlasts⟩ := List.append_inj' (hrequests.symm.trans hrequests') rfl
      rw [List.singleton_inj.1 hlasts]
  · refine iff_of_false (hne a) ?_
    rintro ⟨before, last, hrequests, -, hlast⟩
    simp [hrange last (by simp [hrequests])] at hlast

/-- Settles O38: a step that needs no operand cell reads pc alone, and the other clauses are read off the ways a step
can end (`StepTrace`), the memory answering OUT_OF_RANGE just to an address outside the array. -/
theorem requestsOfAStep : Obligations.RequestsOfAStep := by
  refine ⟨fun u s hst h => stepRequests_of_noOperands u hst h, fun u s hst hop => ?_, fun u s t _ ht hst => ?_,
    fun u s t _ ht => ?_, fun u s a hst => ?_, fun u s before last hrequests r hr => ?_⟩
  · obtain ⟨t, ht⟩ := stepUnder_running (u := u) hst
    exact (stepTrace ht).isPrefix_row hop
  · obtain ⟨v, hrequests, hmem⟩ := (stepTrace ht).row_of_running hst
    exact ⟨_, _, _, v, hrequests, rfl, rfl, rfl, hmem⟩
  · exact ⟨fun herr hst => ((stepTrace ht).requests_of_record hst).1 herr,
      fun b herr hst => ((stepTrace ht).requests_of_record hst).2 b herr⟩
  · obtain ⟨t, ht⟩ := stepUnder_running (u := u) hst
    simp only [ht, Host.Outcome.next.injEq, serve_outOfRange]
    exact (stepTrace ht).raises_outOfRange_iff a
  · have hst : s.st = .running := by
      by_contra hst
      simp [stepRequests_of_not_running hst] at hrequests
    obtain ⟨t, ht⟩ := stepUnder_running (u := u) hst
    rw [Ne, serve_outOfRange, (stepTrace ht).inRange_of_not_last hrequests r hr]
    exact nofun

end Sys2Proof.Machine
end

section
/-! The step of a running machine (40_execution_cycle.md R81), by what Decode and the budget check answer, and the
one instruction of a cycle (R84). -/

namespace Sys2Proof.Machine

/-! ### What one instruction, and one step, can end in -/

theorem isCycle_of_ne_halt {i : Instr} (hi : i ≠ .halt) : isCycle i = true := by
  cases i with
  | add => rfl
  | mul => rfl
  | halt => exact absurd rfl hi

theorem decodeAt_halt {s : State} :
    decodeAt s = .ok .halt ↔ s.pc < s.params.memCells ∧ Memory.get s.mem s.pc = 99 := by
  simp [decodeAt_ok]

theorem decodeAt_ne_timeoutError (s : State) (b : Nat) : decodeAt s ≠ .error (.timeoutError b) := by
  rw [decodeReadsInOrder s]
  split_ifs <;> exact nofun

theorem arithmetic_ne_timeoutError (op : Int → Int → Int) (a b c : Int) (s : State) (n : Nat) :
    arithmetic op a b c s ≠ .error (.timeoutError n) := by
  simp [arithmetic_error, aluResult_error]

/-- Add and Multiply execute, and issue requests, as an exact operation on three operands does. -/
theorem exec_arithmetic {i : Instr} (hi : i ≠ .halt) :
    ∃ op a b c, (∀ s, exec i s = .next (settle (arithmetic op a b c s) s)) ∧
      ∀ s, instrRequests i s = executeRequests op a b c s := by
  cases i with
  | add a b c => exact ⟨_, a, b, c, fun _ => rfl, fun _ => rfl⟩
  | mul a b c => exact ⟨_, a, b, c, fun _ => rfl, fun _ => rfl⟩
  | halt => exact absurd rfl hi

/-- An Add or a Multiply raises a fault, never the budget's, or completes: memory and pc alone change. -/
theorem exec_ends {i : Instr} {s t : State} (hi : i ≠ .halt) (h : exec i s = .next t) :
    (∃ f, t = raise f s ∧ ∀ b, f ≠ .timeoutError b) ∨ ∃ m, t = { s with mem := m, pc := s.pc + 4 } := by
  obtain ⟨op, a, b, c, hexec, -⟩ := exec_arithmetic hi
  obtain rfl := Host.Outcome.next.inj ((hexec s).symm.trans h)
  obtain ⟨t, ht, hsettle⟩ | ⟨f, hf, hsettle⟩ := settle_cases (arithmetic op a b c s) s
  · obtain ⟨v, -, -, -, -, rfl⟩ := arithmetic_ok.1 ht
    exact .inr ⟨_, hsettle⟩
  · refine .inl ⟨f, hsettle, ?_⟩
    rintro n rfl
    exact arithmetic_ne_timeoutError op a b c s n hf

/-- The budget is checked under run alone, and stops nothing until it is used up (R85). -/
theorem budgetFault_none {u : Bool} {s : State} (h : u = false ∨ s.params.cycleBudget ≠ some s.runCount)
    (i : Instr) : budgetFault u i s = none := by
  cases hb : budgetFault u i s with
  | none => rfl
  | some f =>
    obtain ⟨hu, -, hbudget, -⟩ := budgetFault_some.1 hb
    rcases h with h | h
    · simp [h] at hu
    · exact absurd hbudget h

theorem countCycle_eq (u : Bool) (t : State) :
    countCycle u t = if u = true ∧ t.st = .running then { t with runCount := t.runCount + 1 } else t := by
  simp [countCycle]

theorem countCycle_true_of_running {t : State} (h : t.st = .running) :
    countCycle true t = { t with runCount := t.runCount + 1 } := by
  simp [countCycle_eq, h]

/-- Counting touches the counter alone. -/
theorem countCycle_setRunCount (u : Bool) (t : State) : { countCycle u t with runCount := t.runCount } = t := by
  unfold countCycle
  split <;> rfl

theorem stepUnder_stopped {s : State} (hst : s.st ≠ .running) (u : Bool) (t : State) : stepUnder u s ≠ .next t :=
  fun h => hst (stepUnder_next.1 h).1

theorem stepUnder_of_halt (u : Bool) {s : State} (hst : s.st = .running) (hd : decodeAt s = .ok .halt) :
    stepUnder u s = .next { s with st := .halted } := by
  rw [stepUnder_of_exec hst hd (budgetFault_halt u s) (exec_halt s), countCycle_eq]
  simp

/-- R85: under run, a used-up budget faults the step that would execute an Add or a Multiply. -/
theorem stepUnder_of_budget_used {s : State} {i : Instr} (hst : s.st = .running) (hd : decodeAt s = .ok i)
    (hi : i ≠ .halt) (hbudget : s.params.cycleBudget = some s.runCount) :
    stepUnder true s = .next (raise (.timeoutError s.runCount) s) :=
  have hfault := budgetFault_some.2 ⟨rfl, isCycle_of_ne_halt hi, hbudget, rfl⟩
  stepUnder_next.2 ⟨hst, .inr ⟨i, hd, .inl ⟨_, hfault, rfl⟩⟩⟩

/-- The three ends of a step: it raises, TimeoutError only under run with the budget used up; it halts in place on a
Halt at pc; or it completes an Add or a Multiply within the budget. -/
theorem stepUnder_ends {u : Bool} {s t : State} (h : stepUnder u s = .next t) :
    (∃ f, t = raise f s ∧
      ∀ b, f = .timeoutError b → u = true ∧ s.params.cycleBudget = some s.runCount ∧ b = s.runCount) ∨
    (decodeAt s = .ok .halt ∧ t = { s with st := .halted }) ∨
    ((u = true → s.params.cycleBudget ≠ some s.runCount) ∧
      ∃ m, t = countCycle u { s with mem := m, pc := s.pc + 4 }) := by
  obtain ⟨hst, ⟨f, hd, rfl⟩ | ⟨i, hd, ⟨f, hb, rfl⟩ | ⟨hb, t, hexec, rfl⟩⟩⟩ := stepUnder_next.1 h
  · refine .inl ⟨f, rfl, ?_⟩
    rintro b rfl
    exact absurd hd (decodeAt_ne_timeoutError s b)
  · obtain ⟨hu, -, hbudget, rfl⟩ := budgetFault_some.1 hb
    refine .inl ⟨_, rfl, ?_⟩
    rintro b hf
    exact ⟨hu, hbudget, by simpa using hf.symm⟩
  · by_cases hi : i = .halt
    · subst hi
      obtain rfl := Host.Outcome.next.inj ((exec_halt s).symm.trans hexec)
      exact .inr (.inl ⟨hd, by simp [countCycle_eq]⟩)
    obtain ⟨f, rfl, hf⟩ | ⟨m, rfl⟩ := exec_ends hi hexec
    · exact .inl ⟨f, countCycle_raise u f s, fun b hfb => absurd hfb (hf b)⟩
    · refine .inr (.inr ⟨fun hu hbudget => ?_, m, rfl⟩)
      have hfault := budgetFault_some.2 ⟨hu, isCycle_of_ne_halt hi, hbudget, rfl⟩
      simp [hb] at hfault

/-- Settles O15: the stopped machine has no step by definition, and each branch of the running one is its own
lemma. -/
theorem stepRunsTheDecodedInstruction : Obligations.StepRunsTheDecodedInstruction := by
  refine ⟨fun s => rfl, fun s hst => ?_, fun s hst => ?_, fun u s f hst hd => stepUnder_of_decodeAt_error u hst hd,
    fun u s hst hd => stepUnder_of_halt u hst hd, fun s i b hst hd hi hbudget hcount => ?_,
    fun u s i hst hd hi hbudget => ?_⟩
  · simp only [step, stepUnder, hst]
  · simp only [step, stepUnder, hst]
  · subst hcount
    exact stepUnder_of_budget_used hst hd hi hbudget
  · obtain ⟨t, hexec⟩ := exec_next i s
    refine ⟨t, hexec, ?_⟩
    rw [stepUnder_of_exec hst hd (budgetFault_none hbudget i) hexec, countCycle_eq]

/-! ### cycle -/

theorem hostCycle_of_faulted {s : State} (hst : s.st = .faulted) : hostCycle s = (.error s.err, s) := by
  simp only [hostCycle, hst]

theorem hostCycle_of_halted {s : State} (hst : s.st = .halted) :
    hostCycle s = (.error (some (.cycleWhenHalted s.pc)), raise (.cycleWhenHalted s.pc) s) := by
  simp only [hostCycle, hst, failWith]

theorem hostCycle_of_halt {s : State} (hst : s.st = .running) (hd : decodeAt s = .ok .halt) :
    hostCycle s = (.error (some (.cycleWhenHalted s.pc)), raise (.cycleWhenHalted s.pc) s) := by
  simp only [hostCycle, hst, hd, failWith]

/-- A cycle on an Add or a Multiply is its execution, uncounted and with no budget checked. -/
theorem hostCycle_of_exec {s t : State} {i : Instr} (hst : s.st = .running) (hd : decodeAt s = .ok i)
    (hi : i ≠ .halt) (hexec : exec i s = .next t) : hostCycle s = (resultOf t, t) := by
  have hstep : stepResult false s = t :=
    stepResult_next (stepUnder_of_exec hst hd (budgetFault_none (.inl rfl) i) hexec)
  cases i with
  | add a b c => simp only [hostCycle, hst, hd, hstep]
  | mul a b c => simp only [hostCycle, hst, hd, hstep]
  | halt => exact absurd rfl hi

theorem resultOf_eq (t : State) : resultOf t = if t.st = .faulted then .error t.err else .ok := by
  unfold resultOf
  cases t.st <;> rfl

/-- The state a cycle leaves: a FAULTED machine as it was, a fault raised, never the budget's, or an Add or a
Multiply of a running machine completed. -/
theorem hostCycle_ends (s : State) :
    (s.st = .faulted ∧ (hostCycle s).2 = s) ∨
    (∃ f, (hostCycle s).2 = raise f s ∧ ∀ b, f ≠ .timeoutError b) ∨
    (s.st = .running ∧ ∃ m, (hostCycle s).2 = { s with mem := m, pc := s.pc + 4 }) := by
  cases hst : s.st with
  | faulted => exact .inl ⟨rfl, by rw [hostCycle_of_faulted hst]⟩
  | halted => exact .inr (.inl ⟨_, by rw [hostCycle_of_halted hst], by simp⟩)
  | running =>
    cases hd : decodeAt s with
    | error f =>
      refine .inr (.inl ⟨f, by rw [hostCycle_of_decodeAt_error hst hd], ?_⟩)
      rintro b rfl
      exact decodeAt_ne_timeoutError s b hd
    | ok i =>
      by_cases hi : i = .halt
      · subst hi
        exact .inr (.inl ⟨_, by rw [hostCycle_of_halt hst hd], by simp⟩)
      obtain ⟨t, hexec⟩ := exec_next i s
      rw [hostCycle_of_exec hst hd hi hexec]
      exact .inr ((exec_ends hi hexec).imp_right fun ⟨m, hm⟩ => ⟨rfl, m, by rw [hm, hst]⟩)

/-- Settles O18: each case of R84 is one lemma about `hostCycle`, and the last two clauses go over the ways a cycle
can end. -/
theorem cycleIsOneInstruction : Obligations.CycleIsOneInstruction := by
  refine ⟨fun s => hostCycle_of_faulted, fun s => hostCycle_of_halted, fun s => hostCycle_of_halt,
    fun s f => hostCycle_of_decodeAt_error, fun s i hst hd hi => ?_, fun s hhalted => ?_, fun s b herr => ?_⟩
  · obtain ⟨t, hexec⟩ := exec_next i s
    exact ⟨t, hexec, by rw [hostCycle_of_exec hst hd hi hexec, resultOf_eq]⟩
  · obtain ⟨hst, hend⟩ | ⟨f, hend, -⟩ | ⟨hst, m, hend⟩ := hostCycle_ends s
    · simp [hend, hst] at hhalted
    · simp [hend] at hhalted
    · simp [hend, hst] at hhalted
  · obtain ⟨-, hend⟩ | ⟨f, hend, hf⟩ | ⟨-, m, hend⟩ := hostCycle_ends s
    · rwa [hend] at herr
    · rw [hend] at herr
      exact absurd (Option.some.inj herr) (hf b)
    · rwa [hend] at herr

/-- Settles O25: both leave what exec answers, which keeps run_count, and the step under run then counts it. -/
theorem cycleMatchesStepUnderRun : Obligations.CycleMatchesStepUnderRun := by
  intro s i hst hd hi hbudget
  obtain ⟨t, hexec⟩ := exec_next i s
  have hcount : t.runCount = s.runCount := by
    obtain ⟨f, rfl, -⟩ | ⟨m, rfl⟩ := exec_ends hi hexec <;> rfl
  refine ⟨_, stepUnder_of_exec hst hd (budgetFault_none (.inr hbudget) i) hexec, ?_⟩
  rw [hostCycle_of_exec hst hd hi hexec, ← hcount, countCycle_setRunCount]

end Sys2Proof.Machine
end

section
/-! Runs (40_execution_cycle.md R80, R82, R83, R85, R87): a run is repeated step, and what every step keeps holds
where the run ends. -/

namespace Sys2Proof.Machine

/-! ### Run as repeated step -/

theorem Status.ne_running_iff {st : Status} : st ≠ .running ↔ st = .faulted ∨ st = .halted := by
  cases st <;> simp

theorem stepsFrom_stopped {s t : State} (hst : s.st ≠ .running) (k : Nat) :
    stepsFrom k s = .next t ↔ k = 0 ∧ s = t := by
  cases k with
  | zero => simp
  | succ k => simp [stepsFrom_succ_stopped k hst]

/-- No step before the last ends a running machine's run. -/
theorem exists_stepsFrom_succ {fuel : Nat} {s s' t : State} (hst : s.st = .running) (hs' : step s = .next s') :
    (∃ k ≤ fuel + 1, stepsFrom k s = .next t ∧ t.st ≠ .running) ↔
      ∃ k ≤ fuel, stepsFrom k s' = .next t ∧ t.st ≠ .running := by
  constructor
  · rintro ⟨k, hk, hsteps, ht⟩
    cases k with
    | zero =>
      obtain rfl := Host.Outcome.next.inj hsteps
      exact absurd hst ht
    | succ k => exact ⟨k, by omega, by rw [← stepsFrom_succ k hs', hsteps], ht⟩
  · rintro ⟨k, hk, hsteps, ht⟩
    exact ⟨k + 1, by omega, by rw [stepsFrom_succ k hs', hsteps], ht⟩

/-- The loop answers the first state that is not running, if its steps suffice to reach one. -/
theorem runLoop_eq_some {fuel : Nat} {s t : State} :
    runLoop fuel s = some t ↔ ∃ k ≤ fuel, stepsFrom k s = .next t ∧ t.st ≠ .running := by
  induction fuel generalizing s with
  | zero =>
    by_cases hst : s.st = .running
    · have hne : s = t → t.st = .running := by rintro rfl; exact hst
      simpa [runLoop_zero hst] using hne
    · have hne : s = t → t.st ≠ .running := by rintro rfl; exact hst
      simpa [runLoop_stopped hst] using hne
  | succ fuel ih =>
    by_cases hst : s.st = .running
    · obtain ⟨s', hs'⟩ := stepUnder_running (u := true) hst
      rw [runLoop_running hst hs', ih, exists_stepsFrom_succ hst hs']
    · have hne : s = t → t.st ≠ .running := by rintro rfl; exact hst
      simpa [runLoop_stopped hst, stepsFrom_stopped hst] using hne

theorem hostRun_eq_some {fuel : Nat} {s t : State} {r : HostResult} (hst : s.st = .running) :
    hostRun fuel s = some (r, t) ↔ runLoop fuel { s with runCount := 0 } = some t ∧ r = resultOf t := by
  rw [hostRun_running hst, Option.map_eq_some_iff]
  constructor
  · rintro ⟨t, hloop, heq⟩
    obtain ⟨rfl, rfl⟩ := Prod.mk.inj heq
    exact ⟨hloop, rfl⟩
  · rintro ⟨hloop, rfl⟩
    exact ⟨t, hloop, rfl⟩

theorem runLoop_not_running {fuel : Nat} {s t : State} (h : runLoop fuel s = some t) : t.st ≠ .running := by
  obtain ⟨-, -, -, ht⟩ := runLoop_eq_some.1 h
  exact ht

/-- What a stopped machine returns. -/
theorem resultOf_stopped {t : State} {r : HostResult} :
    t.st ≠ .running ∧ r = resultOf t ↔
      (t.st = .halted ∧ r = .ok) ∨ (t.st = .faulted ∧ r = .error t.err) := by
  unfold resultOf
  cases t.st <;> simp

/-- Settles O17: `runLoop_eq_some` says the loop is repeated step, and `resultOf_stopped` what is returned at its
end. -/
theorem runIsRepeatedStep : Obligations.RunIsRepeatedStep := by
  refine ⟨fun fuel s hst => hostRun_faulted hst fuel, fun fuel s hst => hostRun_halted hst fuel,
    fun fuel s t r hst => ?_⟩
  rw [hostRun_eq_some hst, runLoop_eq_some, ← exists_and_right]
  simp only [and_assoc, resultOf_stopped]

/-- Settles O16: what a stopped machine answers is said once for each operation and status; reset, and a load that
fits, make the fresh start. -/
theorem stoppedCoreHasNoStep : Obligations.StoppedCoreHasNoStep := by
  refine ⟨fun s hst => ⟨stepUnder_stopped hst true, stepUnder_stopped hst⟩, fun s hst => ?_, fun s => rfl,
    fun s program h => ?_⟩
  · rcases Status.ne_running_iff.1 hst with hst | hst
    · refine ⟨fun overrides t => by simp [hostInit, hst], by simp [hostCycle_of_faulted hst, hst], ?_⟩
      intro fuel r t h
      obtain ⟨-, rfl⟩ : _ ∧ s = t := by simpa [hostRun_faulted hst] using h
      simp [hst]
    · refine ⟨fun overrides t => by simp [hostInit, hst], by simp [hostCycle_of_halted hst], ?_⟩
      intro fuel r t h
      obtain ⟨-, rfl⟩ : _ ∧ { s with runCount := 0 } = t := by simpa [hostRun_halted hst] using h
      simp [hst]
  · obtain ⟨m, hload, -⟩ := hostLoad_of_programWf h
    exact ⟨_, hload, rfl⟩

/-! ### What every step keeps holds where the run ends -/

theorem stepsFrom_keeps {P : State → Prop} (hstep : ∀ {s t}, P s → stepUnder true s = .next t → P t) {k : Nat}
    {s t : State} (hs : P s) (h : stepsFrom k s = .next t) : P t := by
  induction k generalizing s with
  | zero =>
    obtain rfl := Host.Outcome.next.inj h
    exact hs
  | succ k ih =>
    by_cases hst : s.st = .running
    · obtain ⟨s', hs'⟩ := stepUnder_running (u := true) hst
      exact ih (hstep hs hs') (by rw [← stepsFrom_succ k hs', h])
    · exact absurd h (stepsFrom_succ_stopped k hst)

/-- A property of the state a run starts its loop in that steps keep holds where the run ends. -/
theorem hostRun_keeps {P : State → Prop} (hstep : ∀ {s t}, P s → stepUnder true s = .next t → P t) {fuel : Nat}
    {s t : State} {r : HostResult} (hst : s.st = .running) (hs : P { s with runCount := 0 })
    (h : hostRun fuel s = some (r, t)) : P t := by
  obtain ⟨k, -, hsteps, -⟩ := runLoop_eq_some.1 ((hostRun_eq_some hst).1 h).1
  exact stepsFrom_keeps hstep hs hsteps

/-- Whatever the step, a machine it leaves HALTED stands at a Halt (R33). -/
theorem stepUnder_haltOk {u : Bool} {s t : State} (h : stepUnder u s = .next t) : t.HaltOk := by
  have hst : s.st = .running := (stepUnder_next.1 h).1
  intro ht
  obtain ⟨f, rfl, -⟩ | ⟨hd, rfl⟩ | ⟨-, m, rfl⟩ := stepUnder_ends h
  · simp at ht
  · exact decodeAt_halt.1 hd
  · simp [hst] at ht

/-- A step keeps err set exactly while FAULTED (R27, R33). -/
theorem stepUnder_errOk {u : Bool} {s t : State} (hs : s.ErrOk) (h : stepUnder u s = .next t) : t.ErrOk := by
  have hst : s.st = .running := (stepUnder_next.1 h).1
  have herr : s.err = none := by simpa [State.ErrOk, hst] using hs
  obtain ⟨f, rfl, -⟩ | ⟨-, rfl⟩ | ⟨-, m, rfl⟩ := stepUnder_ends h <;> simp [State.ErrOk, hst, herr]

/-- A run from a running machine that ends HALTED ends at a Halt. -/
theorem hostRun_haltOk {fuel : Nat} {s t : State} {r : HostResult} (hst : s.st = .running)
    (h : hostRun fuel s = some (r, t)) : t.HaltOk :=
  hostRun_keeps (P := State.HaltOk) (fun _ => stepUnder_haltOk) hst (by simp [State.HaltOk, hst]) h

/-! ### halted -/

theorem hostHalted_eq (s : State) : hostHalted s = (decodeAt s).map fun i => decide (i = .halt) := by
  unfold hostHalted
  cases decodeAt s with
  | error f => rfl
  | ok i => cases i <;> rfl

theorem hostHalted_ok {s : State} {b : Bool} :
    hostHalted s = .ok b ↔ ∃ i, decodeAt s = .ok i ∧ decide (i = .halt) = b := by
  rw [hostHalted_eq]
  cases decodeAt s <;> simp [Except.map]

theorem hostHalted_error {s : State} {f : FaultRecord} : hostHalted s = .error f ↔ decodeAt s = .error f := by
  rw [hostHalted_eq]
  cases decodeAt s <;> simp [Except.map]

theorem hostHalted_true {s : State} :
    hostHalted s = .ok true ↔ s.pc < s.params.memCells ∧ Memory.get s.mem s.pc = 99 := by
  simp [hostHalted_ok, ← decodeAt_halt]

/-- Settles O19: halted reads Decode's answer, and a run that ends HALTED ends at a Halt (`hostRun_haltOk`). -/
theorem haltedIsAQuery : Obligations.HaltedIsAQuery := by
  refine ⟨fun s => hostHalted_true, fun s => by simp [hostHalted_ok], fun s f => hostHalted_error,
    fun s f hst h => stepUnder_of_decodeAt_error true hst (hostHalted_error.1 h), fun s st err n => rfl,
    fun s t fuel r hst h ht => hostHalted_true.2 (hostRun_haltOk hst h ht), fun p hp => ?_⟩
  have hpc : 0 < p.memCells := by
    simp only [Params.wf, Bool.and_eq_true, decide_eq_true_eq] at hp
    exact hp.1
  exact hostHalted_error.2 (decodeAt_illegal hpc (by simp) (by simp) (by simp))

/-! ### The budget of a run -/

/-- What the budget's rule (R85) says in mid-run, of a run that `s` began. -/
structure CountedFrom (s t : State) : Prop where
  params : t.params = s.params
  pc : t.pc = s.pc + 4 * t.runCount
  runCount_le : ∀ b, s.params.cycleBudget = some b → t.runCount ≤ b
  timeout : ∀ b, t.err = some (.timeoutError b) → t.st = .faulted →
    s.params.cycleBudget = some b ∧ t.runCount = b

theorem CountedFrom.start {s : State} (hst : s.st = .running) : CountedFrom s { s with runCount := 0 } where
  params := rfl
  pc := rfl
  runCount_le _ _ := Nat.zero_le _
  timeout := by simp [hst]

theorem CountedFrom.step {s t t' : State} (h : CountedFrom s t) (ht : stepUnder true t = .next t') :
    CountedFrom s t' := by
  have hst : t.st = .running := (stepUnder_next.1 ht).1
  obtain ⟨hparams, hpc, hle, -⟩ := h
  obtain ⟨f, rfl, htimeout⟩ | ⟨-, rfl⟩ | ⟨hbudget, m, rfl⟩ := stepUnder_ends ht
  · refine ⟨hparams, hpc, hle, fun b herr _ => ?_⟩
    obtain ⟨-, hused, rfl⟩ := htimeout b (Option.some.inj herr)
    exact ⟨hparams ▸ hused, rfl⟩
  · exact ⟨hparams, hpc, hle, by simp⟩
  · rw [countCycle_true_of_running (by exact hst)]
    refine ⟨hparams, by simp only [hpc]; omega, fun b hb => ?_, by simp [hst]⟩
    have hne : t.runCount ≠ b := by
      rintro rfl
      exact hbudget rfl (hparams ▸ hb)
    exact Nat.lt_of_le_of_ne (hle b hb) hne

theorem hostRun_countedFrom {fuel : Nat} {s t : State} {r : HostResult} (hst : s.st = .running)
    (h : hostRun fuel s = some (r, t)) : CountedFrom s t :=
  hostRun_keeps CountedFrom.step hst (CountedFrom.start hst) h

/-- Settles O20: the budget's check is one branch of the step, and what a run counts is `CountedFrom`, kept by every
step. -/
theorem budgetBoundsARun : Obligations.BudgetBoundsARun := by
  refine ⟨fun s i => stepUnder_of_budget_used, fun s hst hd => stepUnder_of_halt true hst hd,
    fun s t fuel r hst h => ?_, fun s t b hst herr ht => ?_⟩
  · obtain ⟨-, hpc, hle, htimeout⟩ := hostRun_countedFrom hst h
    exact ⟨hpc, hle, htimeout⟩
  · obtain ⟨f, rfl, htimeout⟩ | ⟨-, rfl⟩ | ⟨-, m, rfl⟩ := stepUnder_ends ht
    · intro hf
      simpa using htimeout b (Option.some.inj hf)
    · simp [herr]
    · simp [herr]

/-! ### The two ends of a run -/

/-- Settles O23: `HaltOk` and `ErrOk` hold where the run ends, and a machine that is not running is one of the two
ends. -/
theorem runEndsHaltedOrFaulted : Obligations.RunEndsHaltedOrFaulted := by
  intro s t fuel r hst herr h
  obtain ⟨hloop, hr⟩ := (hostRun_eq_some hst).1 h
  have hparams : t.params = s.params := (hostRun_countedFrom hst h).params
  have herrOk : t.ErrOk :=
    hostRun_keeps (P := State.ErrOk) stepUnder_errOk hst (by simp [State.ErrOk, hst, herr]) h
  rcases resultOf_stopped.1 ⟨runLoop_not_running hloop, hr⟩ with ⟨ht, rfl⟩ | ⟨ht, rfl⟩
  · have hnone : t.err = none := by simpa [State.ErrOk, ht] using herrOk
    obtain ⟨hpc, hcell⟩ := hostRun_haltOk hst h ht
    exact .inl ⟨ht, hnone, rfl, hparams ▸ hpc, hcell⟩
  · obtain ⟨f, hf⟩ := Option.ne_none_iff_exists'.1 (herrOk.1 ht)
    exact .inr ⟨ht, f, hf, by rw [hf]⟩

end Sys2Proof.Machine
end

section
/-! Straight-line code (40_execution_cycle.md R89): one cycle for each Add or Multiply, up to the Halt. -/

namespace Sys2Proof.Machine

theorem stepsFrom_then_step {k : Nat} {s t u : State} (h : stepsFrom k s = .next t) (ht : step t = .next u) :
    stepsFrom (k + 1) s = .next u := by
  induction k generalizing s with
  | zero =>
    obtain rfl := Host.Outcome.next.inj h
    rw [stepsFrom_succ 0 ht, stepsFrom_zero]
  | succ k ih =>
    by_cases hst : s.st = .running
    · obtain ⟨s', hs'⟩ := stepUnder_running (u := true) hst
      rw [stepsFrom_succ k hs'] at h
      rw [stepsFrom_succ (k + 1) hs', ih h]
    · exact absurd h (stepsFrom_succ_stopped k hst)

theorem hostRun_of_stepsFrom {k : Nat} {s t : State} (hst : s.st = .running)
    (h : stepsFrom k { s with runCount := 0 } = .next t) (ht : t.st ≠ .running) :
    hostRun k s = some (resultOf t, t) :=
  (hostRun_eq_some hst).2 ⟨runLoop_eq_some.2 ⟨k, Nat.le_refl k, h, ht⟩, rfl⟩

/-- R89's straight-line code: `k` Adds and Multiplies from address 0 and the Halt after them, every operand in range,
and no destination in a later instruction or the Halt. -/
structure StraightLine (s : State) (k : Nat) : Prop where
  halt_lt : 4 * k < s.params.memCells
  opcode : ∀ j, j < k → Memory.get s.mem (4 * j) = 1 ∨ Memory.get s.mem (4 * j) = 2
  halt : Memory.get s.mem (4 * k) = 99
  operands : ∀ j d, j < k → 1 ≤ d → d ≤ 3 →
    0 ≤ Memory.get s.mem (4 * j + d) ∧ Memory.get s.mem (4 * j + d) < s.params.memCells
  destination : ∀ j, j < k → Memory.get s.mem (4 * j + 3) < 4 * (j : Int) + 4 ∨
    4 * (k : Int) < Memory.get s.mem (4 * j + 3)

/-- The run of the code in `s` after `j` cycles: the instructions still to come, and the Halt, are as they were. -/
structure AfterCycles (s : State) (k j : Nat) (u : State) : Prop where
  params : u.params = s.params
  pc : u.pc = 4 * j
  st : u.st = .running
  runCount : u.runCount = j
  code : ∀ a, 4 * j ≤ a → a ≤ 4 * k → Memory.get u.mem a = Memory.get s.mem a

/-- One cycle further along the code, if the result does not overflow. -/
theorem AfterCycles.step {s u : State} {k j : Nat} (hcode : StraightLine s k)
    (hbudget : ∀ b, s.params.cycleBudget = some b → k ≤ b) (h : AfterCycles s k j u) (hj : j < k) :
    (∃ u', Machine.step u = .next u' ∧ AfterCycles s k (j + 1) u') ∨
      ∃ a, Machine.step u = .next (raise (.arithmeticOverflow a) u) := by
  obtain ⟨hparams, hpc, hst, hcount, hcells⟩ := h
  have hop : Memory.get u.mem u.pc = 1 ∨ Memory.get u.mem u.pc = 2 := by
    rw [hpc, hcells _ (by omega) (by omega)]
    exact hcode.opcode j hj
  have hoperand (d : Nat) (hd : d ≤ 3) : operand u d = Memory.get s.mem (4 * j + d) := by
    rw [operand, hpc, hcells _ (by omega) (by omega)]
  have hrange (d : Nat) (h1 : 1 ≤ d) (h3 : d ≤ 3) : inRange u (operand u d) = true := by
    rw [inRange_iff, hparams, hoperand d h3]
    exact hcode.operands j d hj h1 h3
  have hunused : true = false ∨ u.params.cycleBudget ≠ some u.runCount := by
    refine .inr fun hb => ?_
    have := hbudget u.runCount (hparams ▸ hb)
    omega
  have hlt : u.pc + 3 < u.params.memCells := by
    have := hcode.halt_lt
    rw [hpc, hparams]
    omega
  obtain ⟨i, hd, hexec, -⟩ := decodeAt_operands hlt hop
  have hstep := stepUnder_of_exec hst hd (budgetFault_none hunused i) hexec
  obtain ⟨u', hexecute, hsettle⟩ | ⟨f, hexecute, hsettle⟩ := settle_cases (executeAtPc u) u
  · obtain ⟨v, -, -, -, -, rfl⟩ := arithmetic_ok.1 hexecute
    rw [hsettle, countCycle_true_of_running (by exact hst)] at hstep
    refine .inl ⟨_, hstep, hparams, by simp only [hpc]; omega, hst, by simp only [hcount], fun a ha hak => ?_⟩
    have hother : a ≠ (operand u 3).toNat := by
      have := hcode.destination j hj
      have := hcode.operands j 3 hj (by omega) (by omega)
      rw [hoperand 3 (by omega)]
      omega
    rw [Memory.get_put_other v hother, hcells a (by omega) hak]
  · rw [hsettle, countCycle_raise] at hstep
    rcases arithmetic_error.1 hexecute with ⟨hout, -⟩ | ⟨-, hout, -⟩ | ⟨-, -, halu⟩ | ⟨-, -, -, hout, -⟩
    · simp [hrange 1] at hout
    · simp [hrange 2] at hout
    · obtain ⟨-, -, rfl⟩ := aluResult_error.1 halu
      exact .inr ⟨u.pc, hstep⟩
    · simp [hrange 3] at hout

/-- After its `k` cycles the code halts in place. -/
theorem AfterCycles.halts {s u : State} {k : Nat} (hcode : StraightLine s k) (h : AfterCycles s k k u) :
    Machine.step u = .next { u with st := .halted } := by
  refine stepUnder_of_halt true h.st (decodeAt_halt.2 ⟨?_, ?_⟩)
  · rw [h.pc, h.params]
    exact hcode.halt_lt
  · rw [h.pc, h.code _ (Nat.le_refl _) (Nat.le_refl _)]
    exact hcode.halt

/-- A run that never ends in an overflow takes every cycle of the code. -/
theorem StraightLine.reaches {s : State} {k : Nat} (hcode : StraightLine s k) (hst : s.st = .running) (hpc : s.pc = 0)
    (hbudget : ∀ b, s.params.cycleBudget = some b → k ≤ b)
    (hoverflow : ∀ fuel r t a, hostRun fuel s = some (r, t) → t.err ≠ some (.arithmeticOverflow a)) (j : Nat)
    (hj : j ≤ k) : ∃ u, stepsFrom j { s with runCount := 0 } = .next u ∧ AfterCycles s k j u := by
  induction j with
  | zero => exact ⟨_, rfl, rfl, hpc, hst, rfl, fun _ _ _ => rfl⟩
  | succ j ih =>
    obtain ⟨u, hu, hafter⟩ := ih (by omega)
    obtain ⟨u', hstep, hafter'⟩ | ⟨a, hstep⟩ := hafter.step hcode hbudget hj
    · exact ⟨u', stepsFrom_then_step hu hstep, hafter'⟩
    · have hrun := hostRun_of_stepsFrom hst (stepsFrom_then_step hu hstep) (by simp)
      exact absurd rfl (hoverflow _ _ _ a hrun)

/-- Settles O24: the run stands at the Halt after `k` cycles, by induction on the cycles, and the next step finds
it. -/
theorem straightLineTakesOneCycleEach : Obligations.StraightLineTakesOneCycleEach := by
  intro s k hst hpc hbudget hlt hop hhalt hoperands hdestination hoverflow
  have hcode : StraightLine s k := ⟨hlt, hop, hhalt, hoperands, hdestination⟩
  obtain ⟨u, hu, hafter⟩ := hcode.reaches hst hpc hbudget hoverflow k (Nat.le_refl k)
  have hrun := hostRun_of_stepsFrom hst (stepsFrom_then_step hu (hafter.halts hcode)) (by simp)
  exact ⟨_, hrun, rfl, hafter.pc, hafter.runCount⟩

end Sys2Proof.Machine
end

section
/-! A step depends on memory only through the cells it reads (20_memory.md section 5 and section 6; R88). -/

namespace Sys2Proof.Machine

/-! ### What a step writes -/

theorem mem_requestRow_write {s : State} {a v v' : Int} :
    .write a v ∈ requestRow s v' ↔ a = operand s 3 ∧ v = v' := by
  simp [requestRow, sourceRequests, destinationRequest]

/-- A step that stops the machine writes no cell. -/
theorem stepUnder_mem_of_stopped {u : Bool} {s t : State} (h : stepUnder u s = .next t) (ht : t.st ≠ .running) :
    t.mem = s.mem := by
  have hst : s.st = .running := (stepUnder_next.1 h).1
  obtain ⟨f, rfl, -⟩ | ⟨-, rfl⟩ | ⟨-, m, rfl⟩ := stepUnder_ends h
  · rfl
  · rfl
  · simp [hst] at ht

/-- A step after which the machine still runs wrote its last request's value to its destination, and no more. -/
theorem stepUnder_mem_of_running {u : Bool} {s t : State} (h : stepUnder u s = .next t) (ht : t.st = .running) :
    ∃ v, stepRequests u s = requestRow s v ∧ inRange s (operand s 3) = true ∧
      t.mem = Memory.put s.mem (operand s 3).toNat v := by
  obtain ⟨v, hrequests, hwrite⟩ := (stepTrace h).row_of_running ht
  obtain ⟨hrange, hmem⟩ := memWrite_ok.1 hwrite
  exact ⟨v, hrequests, hrange, congrArg State.mem hmem⟩

/-- A cell that a step changed is one it issued a write for. -/
theorem write_of_get_ne {u : Bool} {s t : State} {a : Nat} (h : stepUnder u s = .next t)
    (ha : Memory.get t.mem a ≠ Memory.get s.mem a) : ∃ v, Request.write (a : Int) v ∈ stepRequests u s := by
  by_cases ht : t.st = .running
  case neg => exact absurd (by rw [stepUnder_mem_of_stopped h ht]) ha
  obtain ⟨v, hrequests, hrange, hmem⟩ := stepUnder_mem_of_running h ht
  obtain ⟨hlow, -⟩ := inRange_iff.1 hrange
  refine ⟨v, hrequests ▸ mem_requestRow_write.2 ⟨?_, rfl⟩⟩
  by_contra hne
  exact ha (by rw [hmem, Memory.get_put_other v (by omega)])

/-- After a completed step the cell it issued a write for holds the value of the write. -/
theorem get_of_write {u : Bool} {s t : State} {a : Nat} {v : Int} (h : stepUnder u s = .next t)
    (hwf : Memory.wf s.mem = true) (ht : t.st = .running) (hwrite : Request.write (a : Int) v ∈ stepRequests u s) :
    Memory.get t.mem a = v := by
  obtain ⟨v', hrequests, -, hmem⟩ := stepUnder_mem_of_running h ht
  obtain ⟨ha, rfl⟩ := mem_requestRow_write.1 (hrequests ▸ hwrite)
  rw [hmem, ← ha, Memory.get_put hwf, Int.toNat_natCast, if_pos rfl]

/-! ### The same reads in another memory -/

/-- Another memory that answers these requests' reads as the machine's own does. -/
def ReadsAgree (s : State) (m : Memory) (requests : List Request) : Prop :=
  ∀ a : Nat, a < s.params.memCells → Request.read (a : Int) ∈ requests → Memory.get m a = Memory.get s.mem a

theorem ReadsAgree.append {s : State} {m : Memory} {before after : List Request} :
    ReadsAgree s m (before ++ after) ↔ ReadsAgree s m before ∧ ReadsAgree s m after := by
  simp only [ReadsAgree, List.mem_append, or_imp, forall_and]

theorem ReadsAgree.mono {s : State} {m : Memory} {requests fewer : List Request} (h : ReadsAgree s m requests)
    (hfewer : ∀ r ∈ fewer, r ∈ requests) : ReadsAgree s m fewer :=
  fun a ha hread => h a ha (hfewer _ hread)

theorem inRange_setMem (s : State) (m : Memory) (a : Int) : inRange { s with mem := m } a = inRange s a := rfl

/-- Which reads are issued depends on the addresses alone. -/
theorem issueReads_setMem (addrs : List Int) (s : State) (m : Memory) :
    issueReads addrs { s with mem := m } = issueReads addrs s := by
  induction addrs with
  | nil => rfl
  | cons a rest ih =>
    rw [issueReads, issueReads, inRange_setMem, ih]

theorem head_mem_issueReads (a : Int) (rest : List Int) (s : State) : .read a ∈ issueReads (a :: rest) s := by
  rw [issueReads]
  split <;> simp

theorem memRead_setMem {s : State} {m : Memory} {requests : List Request} {a : Int}
    (h : ReadsAgree s m requests) (ha : .read a ∈ requests) : memRead a { s with mem := m } = memRead a s := by
  cases hrange : inRange s a with
  | false => rw [memRead_error.2 ⟨hrange, rfl⟩, memRead_error.2 ⟨inRange_setMem s m a ▸ hrange, rfl⟩]
  | true =>
    obtain ⟨hlow, hhigh⟩ := inRange_iff.1 hrange
    rw [memRead_ok.2 ⟨hrange, rfl⟩]
    refine memRead_ok.2 ⟨hrange, h a.toNat (by omega) ?_⟩
    rwa [Int.toNat_of_nonneg hlow]

/-! ### Decode -/

theorem read_pc_mem_decodeRequests (s : State) : .read (s.pc : Int) ∈ decodeRequests s := by
  by_cases h : s.params.memCells ≤ s.pc ∨ Memory.get s.mem s.pc = 1 ∨ Memory.get s.mem s.pc = 2
  · rw [decodeRequests_of_operands h]
    exact head_mem_issueReads _ _ s
  · obtain ⟨-, hop⟩ := not_or.1 h
    rw [decodeRequests_of_noOperands (.inr (not_or.1 hop))]
    exact List.mem_singleton_self _

theorem decodeRequests_setMem {s : State} {m : Memory} (h : ReadsAgree s m (decodeRequests s)) :
    decodeRequests { s with mem := m } = decodeRequests s := by
  unfold decodeRequests
  simp only [issueReads_setMem, memRead_setMem h (read_pc_mem_decodeRequests s)]

/-- A fetch cut short depends on the opcode alone, and a whole one reads the four cells. -/
theorem decodeAt_setMem {s : State} {m : Memory} (h : ReadsAgree s m (decodeRequests s)) :
    decodeAt { s with mem := m } = decodeAt s := by
  rw [decodeReadsInOrder, decodeReadsInOrder s]
  by_cases hpc : s.params.memCells ≤ s.pc
  · simp [hpc]
  have hopcode : Memory.get m s.pc = Memory.get s.mem s.pc :=
    h s.pc (Nat.not_le.1 hpc) (read_pc_mem_decodeRequests s)
  simp only [hpc, hopcode]
  by_cases hop : Memory.get s.mem s.pc = 1 ∨ Memory.get s.mem s.pc = 2
  case neg => simp only [hop, if_false]
  by_cases hlast : s.params.memCells ≤ s.pc + 3
  · simp only [hlast, if_true]
  have hrequests : decodeRequests s = (fetchAddrs s).map .read := by
    rw [decodeRequests_of_operands (.inr hop), issueReads_answered (fetchAddrs_inRange (Nat.not_le.1 hlast))]
  have hcell (k : Nat) (hk : k ≤ 3) : Memory.get m (s.pc + k) = Memory.get s.mem (s.pc + k) := by
    refine h (s.pc + k) (by omega) ?_
    rw [hrequests]
    interval_cases k <;> simp [fetchAddrs]
  rw [hcell 1 (by omega), hcell 2 (by omega), hcell 3 (by omega)]

/-! ### Execute -/

/-- Execute reads the sources as far as they are in range, whatever becomes of them. -/
theorem source_reads_mem_executeRequests (op : Int → Int → Int) (a b c : Int) (s : State) :
    ∀ r ∈ issueReads [a, b] s, r ∈ executeRequests op a b c s := by
  unfold executeRequests
  cases hsources : readSources a b s with
  | error f => exact fun r hr => hr
  | ok xy =>
    obtain ⟨ha, hb, -, -⟩ := readSources_ok.1 hsources
    rw [issueReads_answered (by simp [ha, hb])]
    dsimp only
    cases aluResult s.params (op xy.1 xy.2) s.pc <;> simp

theorem readSources_setMem {s : State} {m : Memory} {a b : Int} (h : ReadsAgree s m (issueReads [a, b] s)) :
    readSources a b { s with mem := m } = readSources a b s := by
  unfold readSources
  rw [memRead_setMem h (head_mem_issueReads a [b] s)]
  cases ha : memRead a s with
  | error f => rfl
  | ok x =>
    have hb : .read b ∈ issueReads [a, b] s := by
      rw [issueReads, if_pos (memRead_ok.1 ha).1]
      exact List.mem_cons_of_mem _ (head_mem_issueReads b [] s)
    rw [memRead_setMem h hb]

/-- With the sources read alike, Execute's checks go alike, and the states it leaves differ in memory alone. -/
theorem settle_arithmetic_setMem {op : Int → Int → Int} {a b c : Int} {s : State} {m : Memory}
    (h : readSources a b { s with mem := m } = readSources a b s) :
    ∃ m', settle (arithmetic op a b c { s with mem := m }) { s with mem := m } =
      { settle (arithmetic op a b c s) s with mem := m' } := by
  unfold arithmetic
  rw [h]
  cases readSources a b s with
  | error f => exact ⟨m, rfl⟩
  | ok xy =>
    dsimp only
    cases aluResult s.params (op xy.1 xy.2) s.pc with
    | error f => exact ⟨m, rfl⟩
    | ok v =>
      by_cases hc : inRange s c = true
      · simp only [memWrite, inRange_setMem, hc, ↓reduceIte]
        exact ⟨_, rfl⟩
      · simp only [memWrite, inRange_setMem, hc]
        exact ⟨m, rfl⟩

theorem executeRequests_setMem {op : Int → Int → Int} {a b c : Int} {s : State} {m : Memory}
    (h : readSources a b { s with mem := m } = readSources a b s) :
    executeRequests op a b c { s with mem := m } = executeRequests op a b c s := by
  unfold executeRequests
  rw [h, issueReads_setMem]

theorem exec_setMem {i : Instr} {s t : State} {m : Memory} (h : ReadsAgree s m (instrRequests i s))
    (hexec : exec i s = .next t) :
    instrRequests i { s with mem := m } = instrRequests i s ∧
      ∃ m', exec i { s with mem := m } = .next { t with mem := m' } := by
  by_cases hi : i = .halt
  · subst hi
    obtain rfl := Host.Outcome.next.inj ((exec_halt s).symm.trans hexec)
    exact ⟨rfl, m, rfl⟩
  obtain ⟨op, a, b, c, hmeaning, hrequests⟩ := exec_arithmetic hi
  obtain rfl := Host.Outcome.next.inj ((hmeaning s).symm.trans hexec)
  rw [hrequests] at h
  have hsources : readSources a b { s with mem := m } = readSources a b s :=
    readSources_setMem (h.mono (source_reads_mem_executeRequests op a b c s))
  obtain ⟨m', hsettle⟩ := settle_arithmetic_setMem (op := op) (c := c) hsources
  exact ⟨by rw [hrequests, hrequests, executeRequests_setMem hsources], m', by rw [hmeaning, hsettle]⟩

/-! ### The step -/

theorem countCycle_setMem (u : Bool) (t : State) (m : Memory) :
    countCycle u { t with mem := m } = { countCycle u t with mem := m } := by
  unfold countCycle
  dsimp only
  split <;> rfl

/-- A step from a memory that answers its reads alike ends alike, but for what is left in memory. -/
theorem stepUnder_setMem {u : Bool} {s t : State} {m : Memory} (h : stepUnder u s = .next t)
    (hagree : ReadsAgree s m (stepRequests u s)) :
    stepRequests u { s with mem := m } = stepRequests u s ∧
      ∃ m', stepUnder u { s with mem := m } = .next { t with mem := m' } := by
  obtain ⟨hst, hends⟩ := stepUnder_next.1 h
  have hst' : ({ s with mem := m } : State).st = .running := hst
  obtain ⟨f, hd, rfl⟩ | ⟨i, hd, ⟨f, hb, rfl⟩ | ⟨hb, t, hexec, rfl⟩⟩ := hends
  · rw [stepRequests_of_decodeAt_error u hst hd] at hagree ⊢
    have hd' : decodeAt { s with mem := m } = .error f := (decodeAt_setMem hagree).trans hd
    refine ⟨?_, m, stepUnder_of_decodeAt_error u hst' hd'⟩
    rw [stepRequests_of_decodeAt_error u hst' hd', decodeRequests_setMem hagree]
  · rw [stepRequests_of_budgetFault hst hd hb] at hagree ⊢
    have hd' : decodeAt { s with mem := m } = .ok i := (decodeAt_setMem hagree).trans hd
    refine ⟨?_, m, stepUnder_next.2 ⟨hst', .inr ⟨i, hd', .inl ⟨f, hb, rfl⟩⟩⟩⟩
    rw [stepRequests_of_budgetFault hst' hd' hb, decodeRequests_setMem hagree]
  · rw [stepRequests_of_exec hst hd hb] at hagree ⊢
    obtain ⟨hdecode, hexecute⟩ := ReadsAgree.append.1 hagree
    have hd' : decodeAt { s with mem := m } = .ok i := (decodeAt_setMem hdecode).trans hd
    obtain ⟨hrequests, m', hexec'⟩ := exec_setMem hexecute hexec
    refine ⟨?_, m', by rw [stepUnder_of_exec hst' hd' hb hexec', countCycle_setMem]⟩
    rw [stepRequests_of_exec hst' hd' hb, decodeRequests_setMem hdecode, hrequests]

/-- Settles O39: `stepUnder_setMem`, and what the step from either memory wrote is known from its requests. -/
theorem stepDependsOnlyOnItsReads : Obligations.StepDependsOnlyOnItsReads := by
  intro u s t m h hagree
  obtain ⟨hrequests, m', h'⟩ := stepUnder_setMem h hagree
  refine ⟨hrequests, m', h', fun a ha => ?_, fun a v hwf hwf' ht hwrite => ⟨?_, get_of_write h hwf ht hwrite⟩⟩
  · rw [← hrequests]
    exact write_of_get_ne h' ha
  · exact get_of_write h' hwf' ht (hrequests ▸ hwrite)

end Sys2Proof.Machine
end

section
/-! The ALU (00_scope.md R9; 41_arithmetic.md R100): the wrapped value, and the result each policy gives. -/

namespace Sys2Proof.Machine

/-- R9's wrap is the balanced remainder modulo 2^W: the one value of Cell that differs by a multiple of 2^W. -/
theorem wrapCell_bits {n : Nat} (hn : 1 ≤ n) (v : Int) : wrapCell (.bits n) v = (BitVec.ofInt n v).toInt := by
  have hpos : 0 < 2 ^ (n - 1) := Nat.two_pow_pos _
  rw [BitVec.toInt_ofInt, eq_comm, Int.bmod_eq_iff (Nat.two_pow_pos n), wrapCell, two_pow_width hn]
  generalize 2 ^ (n - 1) = m at hpos
  have hlow := Int.emod_nonneg (v + m) (b := (2 * m : Nat)) (by omega)
  have hhigh := Int.emod_lt_of_pos (v + m) (b := (2 * m : Nat)) (by omega)
  refine ⟨by omega, by omega, ?_⟩
  have hdvd : ((2 * m : Nat) : Int) ∣ (v + m) % (2 * m : Nat) - (v + m) := Int.dvd_emod_sub_self
  rwa [sub_sub, add_comm (m : Int)]

/-- R100: only a result outside Cell under FAULT is left unanswered. -/
theorem exists_aluResult_ok {p : Params} {r : Int} (pc : Nat)
    (h : inCell p.cellWidth r = true ∨ p.overflowPolicy = .wrap) : ∃ v, aluResult p r pc = .ok v := by
  cases hcell : inCell p.cellWidth r with
  | true => exact ⟨r, aluResult_ok.2 (.inl ⟨hcell, rfl⟩)⟩
  | false => exact ⟨_, aluResult_ok.2 (.inr ⟨hcell, h.resolve_left (by simp [hcell]), rfl⟩)⟩

/-- Settles O10: the four clauses are the two answers of the ALU (`aluResult_ok`, `aluResult_error`), the wrapped
value read as a bit vector, and the reference configuration is 64 bits under FAULT. -/
theorem aluResultByPolicy : Obligations.AluResultByPolicy := by
  constructor
  · intro p r pc hwf
    refine ⟨fun hcell => aluResult_ok.2 (.inl ⟨hcell, rfl⟩),
      fun hcell hpolicy => aluResult_error.2 ⟨hcell, hpolicy, rfl⟩, fun n hn hcell hpolicy => ?_, fun hunbounded => ?_⟩
    · have hwidth : 1 ≤ n := by simpa [Params.wf, CellWidth.wf, hn] using (Bool.and_eq_true_iff.1 hwf).2
      exact aluResult_ok.2 (.inr ⟨hcell, hpolicy, by rw [hn, wrapCell_bits hwidth]⟩)
    · exact aluResult_ok.2 (.inl ⟨by rw [hunbounded, inCell_unbounded], rfl⟩)
  · intro r pc hr
    have hout : inCell (.bits 64) r = false := by
      rw [← Bool.not_eq_true, inCell_bits]
      norm_num
      omega
    exact aluResult_error.2 ⟨hout, rfl, rfl⟩

end Sys2Proof.Machine
end

section
/-! Add and Multiply (41_arithmetic.md R101, R102), as the one execution they share, and what both leave
unchanged. -/

namespace Sys2Proof.Machine

/-- R101 and R102 for any exact operation: the answer by the first check of source 1, source 2, result and destination
that fails, and the completed state when none does. -/
theorem arithmetic_by_first_check (op : Int → Int → Int) (a b c : Int) (s : State) :
    let n : Int := s.params.memCells
    let r : Int := op (Memory.get s.mem a.toNat) (Memory.get s.mem b.toNat)
    let fits := inCell s.params.cellWidth r
    let answer : Host.Outcome State Fault Refusal := .next (settle (arithmetic op a b c s) s)
    ((a < 0 ∨ n ≤ a) → answer = .next (raise (.outOfRangeAccess a) s)) ∧
    (0 ≤ a → a < n → (b < 0 ∨ n ≤ b) → answer = .next (raise (.outOfRangeAccess b) s)) ∧
    (0 ≤ a → a < n → 0 ≤ b → b < n → fits = false → s.params.overflowPolicy = .fault →
      answer = .next (raise (.arithmeticOverflow s.pc) s)) ∧
    (0 ≤ a → a < n → 0 ≤ b → b < n → (fits = true ∨ s.params.overflowPolicy = .wrap) → (c < 0 ∨ n ≤ c) →
      answer = .next (raise (.outOfRangeAccess c) s)) ∧
    (0 ≤ a → a < n → 0 ≤ b → b < n → 0 ≤ c → c < n → fits = true →
      answer = .next { s with mem := Memory.put s.mem c.toNat r, pc := s.pc + 4 }) ∧
    (0 ≤ a → a < n → 0 ≤ b → b < n → 0 ≤ c → c < n → fits = false → s.params.overflowPolicy = .wrap →
      answer = .next { s with mem := Memory.put s.mem c.toNat (wrapCell s.params.cellWidth r), pc := s.pc + 4 }) := by
  intro n r fits answer
  have inside {x : Int} (hlow : 0 ≤ x) (hhigh : x < n) : inRange s x = true := inRange_iff.2 ⟨hlow, hhigh⟩
  have raises {f : FaultRecord} (h : arithmetic op a b c s = .error f) : answer = .next (raise f s) :=
    congrArg (fun x => Host.Outcome.next (settle x s)) h
  have completes {v : Int} (ha : inRange s a = true) (hb : inRange s b = true) (hc : inRange s c = true)
      (halu : aluResult s.params r s.pc = .ok v) :
      answer = .next { s with mem := Memory.put s.mem c.toNat v, pc := s.pc + 4 } :=
    congrArg (fun x => Host.Outcome.next (settle x s)) (arithmetic_ok.2 ⟨v, ha, hb, hc, halu, rfl⟩)
  refine ⟨?source1, ?source2, ?overflow, ?destination, ?inCell, ?wrapped⟩
  case source1 =>
    intro ha
    exact raises (arithmetic_error.2 (.inl ⟨inRange_eq_false_iff.2 ha, rfl⟩))
  case source2 =>
    intro ha ha' hb
    exact raises (arithmetic_error.2 (.inr (.inl ⟨inside ha ha', inRange_eq_false_iff.2 hb, rfl⟩)))
  case overflow =>
    intro ha ha' hb hb' hfits hpolicy
    have halu : aluResult s.params r s.pc = .error (.arithmeticOverflow s.pc) :=
      aluResult_error.2 ⟨hfits, hpolicy, rfl⟩
    exact raises (arithmetic_error.2 (.inr (.inr (.inl ⟨inside ha ha', inside hb hb', halu⟩))))
  case destination =>
    intro ha ha' hb hb' hfits hc
    have halu := exists_aluResult_ok s.pc hfits
    exact raises (arithmetic_error.2
      (.inr (.inr (.inr ⟨inside ha ha', inside hb hb', halu, inRange_eq_false_iff.2 hc, rfl⟩))))
  case inCell =>
    intro ha ha' hb hb' hc hc' hfits
    exact completes (inside ha ha') (inside hb hb') (inside hc hc') (aluResult_ok.2 (.inl ⟨hfits, rfl⟩))
  case wrapped =>
    intro ha ha' hb hb' hc hc' hfits hpolicy
    exact completes (inside ha ha') (inside hb hb') (inside hc hc') (aluResult_ok.2 (.inr ⟨hfits, hpolicy, rfl⟩))

/-- Settles O11: Add is the shared execution with the exact sum. -/
theorem addStoresTheSum : Obligations.AddStoresTheSum :=
  fun s a b c => ⟨rfl, arithmetic_by_first_check (fun x y => x + y) a b c s⟩

/-- Settles O12: Multiply is the shared execution with the exact product. -/
theorem multiplyStoresTheProduct : Obligations.MultiplyStoresTheProduct :=
  fun s a b c => ⟨rfl, arithmetic_by_first_check (fun x y => x * y) a b c s⟩

/-- Either instruction is the shared execution on its own three operands. -/
theorem exec_of_operands {i : Instr} {a b c : Int} (hi : i = .add a b c ∨ i = .mul a b c) :
    ∃ op, ∀ s, exec i s = .next (settle (arithmetic op a b c s) s) := by
  rcases hi with rfl | rfl
  · exact ⟨_, exec_add a b c⟩
  · exact ⟨_, exec_mul a b c⟩

/-- Settles O13: the shared execution settles to the completed state, where the one write leaves every other cell as it
was (`Memory.get_put_other`), or to the fault raised in the state it began in. -/
theorem arithmeticFrame : Obligations.ArithmeticFrame := by
  intro i a b c s t hi h
  obtain ⟨op, hexec⟩ := exec_of_operands hi
  obtain rfl := Host.Outcome.next.inj ((hexec s).symm.trans h)
  obtain ⟨t, ht, hsettle⟩ | ⟨f, -, hsettle⟩ := settle_cases (arithmetic op a b c s) s
  · obtain ⟨v, -, -, hc, -, rfl⟩ := arithmetic_ok.1 ht
    obtain ⟨hlow, hhigh⟩ := inRange_iff.1 hc
    rw [hsettle]
    exact ⟨rfl, rfl, rfl, fun x hx => Memory.get_put_other v (by omega), .inl ⟨rfl, rfl, rfl, hlow, hhigh⟩⟩
  · rw [hsettle]
    exact ⟨rfl, rfl, rfl, fun _ _ => rfl, .inr ⟨rfl, by simp, rfl, rfl⟩⟩

end Sys2Proof.Machine
end

section
/-! The completed step (40_execution_cycle.md R86; 20_memory.md section 4, section 5 and R52): pc, the one cell written,
and what the next decode sees of it. -/

namespace Sys2Proof.Machine

/-- A step after which the machine still runs executed the Add or the Multiply at pc: the ALU's answer, computed from
the cells as they were, went into the destination that the cell at pc + 3 names, and pc moved past the instruction. -/
theorem stepUnder_completes {u : Bool} {s t : State} (h : stepUnder u s = .next t) (ht : t.st = .running) :
    s.pc + 3 < s.params.memCells ∧ (Memory.get s.mem s.pc = 1 ∨ Memory.get s.mem s.pc = 2) ∧
      ∃ v, inRange s (operand s 3) = true ∧ aluAnswer s = .ok v ∧
        t = countCycle u { s with mem := Memory.put s.mem (operand s 3).toNat v, pc := s.pc + 4 } := by
  obtain ⟨-, ⟨f, -, rfl⟩ | ⟨i, hd, ⟨f, -, rfl⟩ | ⟨-, t', hexec, rfl⟩⟩⟩ := stepUnder_next.1 h
  · simp at ht
  · simp at ht
  by_cases hi : i = .halt
  · subst hi
    obtain rfl := Host.Outcome.next.inj ((exec_halt s).symm.trans hexec)
    simp at ht
  obtain ⟨hpc, hop⟩ : s.pc + 3 < s.params.memCells ∧ (Memory.get s.mem s.pc = 1 ∨ Memory.get s.mem s.pc = 2) := by
    obtain ⟨-, ⟨h1, hpc, -⟩ | ⟨h2, hpc, -⟩ | ⟨-, hhalt⟩⟩ := decodeAt_ok.1 hd
    · exact ⟨hpc, .inl h1⟩
    · exact ⟨hpc, .inr h2⟩
    · exact absurd hhalt hi
  obtain ⟨i', hd', hexec', -⟩ := decodeAt_operands hpc hop
  obtain rfl := Except.ok.inj (hd.symm.trans hd')
  obtain rfl := Host.Outcome.next.inj (hexec'.symm.trans hexec)
  obtain ⟨t, hexecute, hsettle⟩ | ⟨f, -, hsettle⟩ := settle_cases (executeAtPc s) s
  · obtain ⟨v, -, -, hc, halu, rfl⟩ := arithmetic_ok.1 hexecute
    exact ⟨hpc, hop, v, hc, halu, by rw [hsettle]⟩
  · simp [hsettle] at ht

/-- Settles O21: a step that leaves the machine running is a completed one, and the two others that `stepUnder_ends`
names, a raise and a Halt, keep pc. -/
theorem pcAdvancesByFourOrStays : Obligations.PcAdvancesByFourOrStays := by
  intro u s t h
  constructor
  · intro ht
    obtain ⟨hpc, hop, v, -, -, rfl⟩ := stepUnder_completes h ht
    exact ⟨by simp, hpc, hop⟩
  · intro ht
    have hst : s.st = .running := (stepUnder_next.1 h).1
    obtain ⟨f, rfl, -⟩ | ⟨-, rfl⟩ | ⟨-, m, rfl⟩ := stepUnder_ends h
    · rfl
    · rfl
    · simp [hst] at ht

/-- Settles O37: a step that stops the machine writes nothing, and a completed one writes its destination alone. -/
theorem stepWritesOnlyTheDestination : Obligations.StepWritesOnlyTheDestination := by
  intro u s t x h hx
  by_cases ht : t.st = .running
  case neg => exact absurd (by rw [stepUnder_mem_of_stopped h ht]) hx
  obtain ⟨hpc, -, v, hrange, -, rfl⟩ := stepUnder_completes h ht
  have hdst : x = (operand s 3).toNat := by
    by_contra hother
    exact hx (by rw [countCycle_mem, Memory.get_put_other v hother])
  exact ⟨ht, hpc, by rw [hdst, Int.toNat_of_nonneg (inRange_iff.1 hrange).1, operand]⟩

/-- Settles O40: what a completed step wrote is the ALU's answer on the cells it began with, and the next step starts
at pc + 4, in the array under either premise since the destination is in range, and decodes the memory left there. -/
theorem writesAreSeenByTheNextDecode : Obligations.WritesAreSeenByTheNextDecode := by
  intro s t hwf _ h ht
  obtain ⟨hpc, hop, v, hrange, halu, hend⟩ := stepUnder_completes h ht
  constructor
  · have hdst : Memory.get t.mem (operand s 3).toNat = v := by
      rw [hend, countCycle_mem, Memory.get_put hwf, if_pos rfl]
    have hpc0 : s.pc < s.params.memCells := by omega
    rw [aluAnswer, ← hdst] at halu
    rcases hop with h1 | h2
    · rw [h1] at halu
      exact ⟨_, decodeAt_ok.2 ⟨hpc0, .inl ⟨h1, hpc, rfl⟩⟩, .inl ⟨_, _, _, rfl, halu⟩⟩
    · rw [h2] at halu
      exact ⟨_, decodeAt_ok.2 ⟨hpc0, .inr (.inl ⟨h2, hpc, rfl⟩)⟩, .inr ⟨_, _, _, rfl, halu⟩⟩
  · intro hnext
    have hpc' : t.pc = s.pc + 4 := by simp [hend]
    have hparams : t.params = s.params := by simp [hend]
    have hlt : t.pc < t.params.memCells := by
      have hdst := (inRange_iff.1 hrange).2
      rw [operand] at hdst
      rw [hpc', hparams]
      omega
    have hfetch (h : s.pc + 7 < s.params.memCells) : t.pc + 3 < t.params.memCells := by
      rw [hpc', hparams]
      exact h
    rw [← hpc']
    refine ⟨fun h99 => ?_, fun h1 h2 h99 => ?_, fun h1 hoperands => ?_, fun h2 hoperands => ?_⟩
    · exact stepUnder_of_halt true ht (decodeAt_halt.2 ⟨hlt, h99⟩)
    · exact stepUnder_of_decodeAt_error true ht (decodeAt_illegal hlt h1 h2 h99)
    · exact decodeAt_ok.2 ⟨hlt, .inl ⟨h1, hfetch hoperands, rfl⟩⟩
    · exact decodeAt_ok.2 ⟨hlt, .inr (.inl ⟨h2, hfetch hoperands, rfl⟩)⟩

end Sys2Proof.Machine
end

section
/-! Halt (42_halt.md R110), and the decoder at the top of memory (30_encoding.md section 3; 10_state.md section 3). -/

namespace Sys2Proof.Machine

/-- Settles O14: a 99 at pc decodes to Halt, on which the step halts in place and cycle raises CycleWhenHalted. -/
theorem haltStopsInPlace : Obligations.HaltStopsInPlace := by
  refine ⟨rfl, exec_halt, fun s hst hpc h99 => ?_⟩
  have hd : decodeAt s = .ok .halt := decodeAt_halt.2 ⟨hpc, h99⟩
  exact ⟨stepUnder_of_halt true hst hd, hostCycle_of_halt hst hd⟩

theorem decodeAt_past_end {s : State} (hpc : s.params.memCells ≤ s.pc) :
    decodeAt s = .error (.outOfRangeAccess s.pc) := by
  rw [decodeReadsInOrder s, if_pos hpc]

/-- An Add or a Multiply cut short by the end of the array: whichever operand cell is the first missing one, its
address is N. -/
theorem decodeAt_cut_short {s : State} (hpc : s.pc < s.params.memCells) (hshort : s.params.memCells ≤ s.pc + 3)
    (hop : Memory.get s.mem s.pc = 1 ∨ Memory.get s.mem s.pc = 2) :
    decodeAt s = .error (.outOfRangeAccess s.params.memCells) := by
  rw [decodeReadsInOrder s, if_neg (Nat.not_le.2 hpc), if_pos hop]
  have hmissing : s.params.memCells = s.pc + 1 ∨ s.params.memCells = s.pc + 2 ∨ s.params.memCells = s.pc + 3 := by
    omega
  obtain hN | hN | hN := hmissing <;> simp [hN]

/-- Settles O36: the first two clauses raise the decoder's fault, and the last cell is in the array, where a 99
decodes to Halt. -/
theorem topOfMemory : Obligations.TopOfMemory := by
  refine ⟨fun s hst hpc => ?_, fun s hst hpc hshort hop => ?_, fun s hst hlast h99 => ?_⟩
  · exact stepUnder_of_decodeAt_error true hst (decodeAt_past_end hpc)
  · exact stepUnder_of_decodeAt_error true hst (decodeAt_cut_short hpc hshort hop)
  · have hpc : s.pc < s.params.memCells := by omega
    exact stepUnder_of_halt true hst (decodeAt_halt.2 ⟨hpc, h99⟩)

end Sys2Proof.Machine
end

section
/-! Faults (60_exceptions.md R122, section 2, R125): what raise records, that a step's fault is precise, and that
FAULTED is terminal. -/

namespace Sys2Proof.Machine

/-- A cycle that is not refused for a Halt is the step that is not under run. -/
theorem hostCycle_of_stepUnder {s t : State} (h : stepUnder false s = .next t) (hd : decodeAt s ≠ .ok .halt) :
    hostCycle s = (resultOf t, t) := by
  obtain ⟨hst, ⟨f, hf, rfl⟩ | ⟨i, hi, ⟨f, hb, -⟩ | ⟨-, t, hexec, rfl⟩⟩⟩ := stepUnder_next.1 h
  · exact hostCycle_of_decodeAt_error hst hf
  · simp [budgetFault_none] at hb
  · have hne : i ≠ .halt := by
      rintro rfl
      exact hd hi
    exact hostCycle_of_exec hst hi hne hexec

theorem resultOf_faulted {t : State} (h : t.st = .faulted) : resultOf t = .error t.err := by
  rw [resultOf_eq, if_pos h]

/-- Whatever the machine's status, a run that ends FAULTED returns the record it leaves in err. -/
theorem hostRun_result_of_faulted {fuel : Nat} {s t : State} {r : HostResult} (h : hostRun fuel s = some (r, t))
    (ht : t.st = .faulted) : r = .error t.err := by
  cases hst : s.st with
  | running =>
    obtain ⟨-, rfl⟩ := (hostRun_eq_some hst).1 h
    exact resultOf_faulted ht
  | halted =>
    obtain ⟨-, rfl⟩ : _ ∧ { s with runCount := 0 } = t := by simpa [hostRun_halted hst] using h
    simp [hst] at ht
  | faulted =>
    obtain ⟨rfl, rfl⟩ : .error s.err = r ∧ s = t := by simpa [hostRun_faulted hst] using h
    rfl

/-- Whatever the machine's status, a cycle that leaves it FAULTED returns the record it leaves in err. -/
theorem hostCycle_result_of_faulted {s : State} (h : (hostCycle s).2.st = .faulted) :
    (hostCycle s).1 = .error (hostCycle s).2.err := by
  cases hst : s.st with
  | faulted => rw [hostCycle_of_faulted hst]
  | halted => rw [hostCycle_of_halted hst, raise_err]
  | running =>
    by_cases hd : decodeAt s = .ok .halt
    · rw [hostCycle_of_halt hst hd, raise_err]
    · obtain ⟨t, ht⟩ := stepUnder_running (u := false) hst
      rw [hostCycle_of_stepUnder ht hd] at h ⊢
      exact resultOf_faulted h

/-- Settles O27: raise is that update by definition, and what a run and a cycle return is said in a lemma each. -/
theorem raiseSetsStatusAndRecord : Obligations.RaiseSetsStatusAndRecord :=
  ⟨fun _ _ => rfl, fun _ _ _ _ => hostRun_result_of_faulted, fun _ => hostCycle_result_of_faulted⟩

/-- Settles O28: of the three ends of a step, only the raise leaves the machine FAULTED. -/
theorem stepFaultsArePrecise : Obligations.StepFaultsArePrecise := by
  intro u s t h ht
  have hst : s.st = .running := (stepUnder_next.1 h).1
  obtain ⟨f, rfl, -⟩ | ⟨-, rfl⟩ | ⟨-, m, rfl⟩ := stepUnder_ends h
  · exact ⟨f, rfl⟩
  · simp at ht
  · simp [hst] at ht

/-- Settles O30: each operation's answer on a FAULTED machine is its own lemma, and reset and a load that fits make
the fresh start. -/
theorem faultedIsTerminal : Obligations.FaultedIsTerminal := by
  intro s hst
  have hstopped : s.st ≠ .running := by simp [hst]
  refine ⟨stepUnder_stopped hstopped true, hostRun_faulted hst, hostCycle_of_faulted hst,
    fun overrides => by simp only [hostInit, hst], freshStart_st s, freshStart_err s, fun program h => ?_⟩
  obtain ⟨m, hload, -⟩ := hostLoad_of_programWf h
  exact ⟨_, hload, rfl, rfl⟩

end Sys2Proof.Machine
end

section
/-! The order of a step's checks (60_exceptions.md R124): the list of checks over the cells, compared with what Decode,
the budget check and Execute answer. -/

namespace Sys2Proof.Machine

/-- The fault in an answer of Execute, if it is one. -/
def faultOf : Except FaultRecord State → Option FaultRecord
  | .ok _ => none
  | .error f => some f

/-- An answered result did not overflow under FAULT. -/
theorem not_overflow_of_aluResult_ok {p : Params} {r v : Int} {pc : Nat} (h : aluResult p r pc = .ok v) :
    ¬(inCell p.cellWidth r = false ∧ p.overflowPolicy = .fault) := by
  rintro ⟨hout, hpolicy⟩
  have herror := aluResult_error (pc := pc).2 ⟨hout, hpolicy, rfl⟩
  simp [h] at herror

/-- The end of R124's list, for any exact operation: source 1, source 2, result, destination. -/
theorem faultOf_arithmetic (op : Int → Int → Int) (a b c : Int) (s : State) :
    faultOf (arithmetic op a b c s) =
      if a < 0 ∨ (s.params.memCells : Int) ≤ a then some (.outOfRangeAccess a)
      else if b < 0 ∨ (s.params.memCells : Int) ≤ b then some (.outOfRangeAccess b)
      else if inCell s.params.cellWidth (op (Memory.get s.mem a.toNat) (Memory.get s.mem b.toNat)) = false ∧
          s.params.overflowPolicy = .fault then some (.arithmeticOverflow s.pc)
      else if c < 0 ∨ (s.params.memCells : Int) ≤ c then some (.outOfRangeAccess c)
      else none := by
  simp only [← inRange_eq_false_iff]
  cases h : arithmetic op a b c s with
  | ok t =>
    obtain ⟨v, ha, hb, hc, halu, -⟩ := arithmetic_ok.1 h
    simp [faultOf, ha, hb, hc, not_overflow_of_aluResult_ok halu]
  | error f =>
    obtain ⟨ha, rfl⟩ | ⟨ha, hb, rfl⟩ | ⟨ha, hb, halu⟩ | ⟨ha, hb, ⟨v, halu⟩, hc, rfl⟩ := arithmetic_error.1 h
    · simp [faultOf, ha]
    · simp [faultOf, ha, hb]
    · obtain ⟨hout, hpolicy, rfl⟩ := aluResult_error.1 halu
      simp [faultOf, ha, hb, hout, hpolicy]
    · simp [faultOf, ha, hb, hc, not_overflow_of_aluResult_ok halu]

/-- R124's list at an Add or a Multiply: the operand cells, the budget under run, and what Execute checks. -/
theorem firstFailingCheck_of_opcode (u : Bool) {s : State} (hpc : s.pc < s.params.memCells)
    (hop : Memory.get s.mem s.pc = 1 ∨ Memory.get s.mem s.pc = 2) :
    firstFailingCheck u s =
      if s.params.memCells ≤ s.pc + 1 then some (.outOfRangeAccess (s.pc + 1))
      else if s.params.memCells ≤ s.pc + 2 then some (.outOfRangeAccess (s.pc + 2))
      else if s.params.memCells ≤ s.pc + 3 then some (.outOfRangeAccess (s.pc + 3))
      else if u = true ∧ s.params.cycleBudget = some s.runCount then some (.timeoutError s.runCount)
      else faultOf (executeAtPc s) := by
  have h99 : Memory.get s.mem s.pc ≠ 99 := by omega
  have hlegal : ¬(Memory.get s.mem s.pc ≠ 1 ∧ Memory.get s.mem s.pc ≠ 2) := by omega
  simp only [firstFailingCheck, Nat.add_zero]
  rw [if_neg (Nat.not_le.2 hpc), if_neg h99, if_neg hlegal, executeAtPc, faultOf_arithmetic]
  rfl

/-- A Halt ends the list at the opcode. -/
theorem firstFailingCheck_of_halt (u : Bool) {s : State} (h : decodeAt s = .ok .halt) :
    firstFailingCheck u s = none := by
  obtain ⟨hpc, h99⟩ := decodeAt_halt.1 h
  simp [firstFailingCheck, hpc, h99]

/-- Opcode fetch, opcode legality and operand cells, Decode's own checks, come first in R124's list. -/
theorem firstFailingCheck_of_decodeAt_error (u : Bool) {s : State} {f : FaultRecord} (h : decodeAt s = .error f) :
    firstFailingCheck u s = some f := by
  by_cases hpc : s.pc < s.params.memCells
  case neg =>
    have hd := decodeAt_past_end (Nat.not_lt.1 hpc)
    obtain rfl := Except.error.inj (hd.symm.trans h)
    exact if_pos (Nat.not_lt.1 hpc)
  by_cases hop : Memory.get s.mem s.pc = 1 ∨ Memory.get s.mem s.pc = 2
  · rw [decodeReadsInOrder s, if_neg (Nat.not_le.2 hpc), if_pos hop] at h
    rw [firstFailingCheck_of_opcode u hpc hop]
    split_ifs at h ⊢ <;> simp_all
  · have h99 : Memory.get s.mem s.pc ≠ 99 := by
      intro h99
      simp [decodeAt_halt.2 ⟨hpc, h99⟩] at h
    obtain ⟨h1, h2⟩ := not_or.1 hop
    obtain rfl := Except.error.inj ((decodeAt_illegal hpc h1 h2 h99).symm.trans h)
    simp [firstFailingCheck, hpc, h1, h2, h99]

/-- Whatever decodes and is no Halt is the Add or the Multiply at pc, with its four cells in the array. -/
theorem exec_of_decodeAt_ok {s : State} {i : Instr} (hd : decodeAt s = .ok i) (hi : i ≠ .halt) :
    s.pc + 3 < s.params.memCells ∧ (Memory.get s.mem s.pc = 1 ∨ Memory.get s.mem s.pc = 2) ∧
      exec i s = .next (settle (executeAtPc s) s) := by
  have hcells : s.pc + 3 < s.params.memCells ∧ (Memory.get s.mem s.pc = 1 ∨ Memory.get s.mem s.pc = 2) := by
    obtain ⟨-, ⟨h1, hpc, -⟩ | ⟨h2, hpc, -⟩ | ⟨-, hhalt⟩⟩ := decodeAt_ok.1 hd
    · exact ⟨hpc, .inl h1⟩
    · exact ⟨hpc, .inr h2⟩
    · exact absurd hhalt hi
  obtain ⟨hpc, hop⟩ := hcells
  obtain ⟨i', hd', hexec, -⟩ := decodeAt_operands hpc hop
  obtain rfl := Except.ok.inj (hd.symm.trans hd')
  exact ⟨hpc, hop, hexec⟩

/-- Past Decode's checks, an Add or a Multiply can fail the budget's, and then those of Execute. -/
theorem firstFailingCheck_of_decodeAt_ok (u : Bool) {s : State} {i : Instr} (hd : decodeAt s = .ok i)
    (hi : i ≠ .halt) : firstFailingCheck u s = (budgetFault u i s).or (faultOf (executeAtPc s)) := by
  obtain ⟨hpc, hop, -⟩ := exec_of_decodeAt_ok hd hi
  rw [firstFailingCheck_of_opcode u (by omega) hop, if_neg (by omega), if_neg (by omega), if_neg (by omega)]
  split_ifs with hused
  · obtain ⟨hu, hbudget⟩ := hused
    rw [budgetFault_some.2 ⟨hu, isCycle_of_ne_halt hi, hbudget, rfl⟩, Option.some_or]
  · have hunused : u = false ∨ s.params.cycleBudget ≠ some s.runCount := by
      simpa [imp_iff_not_or] using hused
    rw [budgetFault_none hunused, Option.none_or]

/-- What Execute settles to: its fault raised, or a state with st and err as they were. -/
theorem settle_executeAtPc_ends (s : State) :
    (∃ f, faultOf (executeAtPc s) = some f ∧ settle (executeAtPc s) s = raise f s) ∨
      (faultOf (executeAtPc s) = none ∧ (settle (executeAtPc s) s).st = s.st ∧
        (settle (executeAtPc s) s).err = s.err) := by
  cases h : executeAtPc s with
  | error f => exact .inl ⟨f, rfl, rfl⟩
  | ok t =>
    obtain ⟨v, -, -, -, -, rfl⟩ := arithmetic_ok.1 h
    exact .inr ⟨rfl, rfl, rfl⟩

/-- R124 for one step: it raises the first check that fails, and where none does it raises nothing. -/
theorem stepUnder_by_first_check {u : Bool} {s t : State} (h : stepUnder u s = .next t) :
    (∃ f, firstFailingCheck u s = some f ∧ t = raise f s) ∨
      (firstFailingCheck u s = none ∧ t.st ≠ .faulted ∧ t.err = s.err) := by
  obtain ⟨hst, ⟨f, hd, rfl⟩ | ⟨i, hd, hend⟩⟩ := stepUnder_next.1 h
  · exact .inl ⟨f, firstFailingCheck_of_decodeAt_error u hd, rfl⟩
  by_cases hi : i = .halt
  · subst hi
    obtain rfl := Host.Outcome.next.inj ((stepUnder_of_halt u hst hd).symm.trans h)
    exact .inr ⟨firstFailingCheck_of_halt u hd, by simp, rfl⟩
  rw [firstFailingCheck_of_decodeAt_ok u hd hi]
  obtain ⟨f, hb, rfl⟩ | ⟨hb, t, hexec, rfl⟩ := hend
  · exact .inl ⟨f, by rw [hb, Option.some_or], rfl⟩
  obtain ⟨-, -, hexec'⟩ := exec_of_decodeAt_ok hd hi
  obtain rfl := Host.Outcome.next.inj (hexec'.symm.trans hexec)
  rw [hb, Option.none_or]
  obtain ⟨f, hf, hsettle⟩ | ⟨hnone, hst', herr⟩ := settle_executeAtPc_ends s
  · exact .inl ⟨f, hf, by rw [hsettle, countCycle_raise]⟩
  · exact .inr ⟨hnone, by simp [hst', hst], by rw [countCycle_err, herr]⟩

theorem stepUnder_of_failing_check {u : Bool} {s : State} {f : FaultRecord} (hst : s.st = .running)
    (hf : firstFailingCheck u s = some f) : stepUnder u s = .next (raise f s) := by
  obtain ⟨t, ht⟩ := stepUnder_running (u := u) hst
  obtain ⟨f', hf', rfl⟩ | ⟨hnone, -⟩ := stepUnder_by_first_check ht
  · obtain rfl := Option.some.inj (hf.symm.trans hf')
    exact ht
  · simp [hf] at hnone

theorem stepUnder_of_no_failing_check {u : Bool} {s : State} (hst : s.st = .running)
    (hnone : firstFailingCheck u s = none) :
    ∃ t, stepUnder u s = .next t ∧ t.st ≠ .faulted ∧ t.err = s.err := by
  obtain ⟨t, ht⟩ := stepUnder_running (u := u) hst
  obtain ⟨f, hf, -⟩ | ⟨-, hend⟩ := stepUnder_by_first_check ht
  · simp [hnone] at hf
  · exact ⟨t, ht, hend⟩

/-- Settles O29: `stepUnder_by_first_check` says it of the step, a Halt fails no check of the list, and a cycle that
meets no Halt is that step. -/
theorem firstFailingCheckIsRaised : Obligations.FirstFailingCheckIsRaised := by
  refine ⟨fun u s f => stepUnder_of_failing_check, fun u s => stepUnder_of_no_failing_check, fun s h => ?_,
    fun s f hst hf => ?_, fun s hst hnone hcell => ?_⟩
  · obtain hst | ⟨hst, hpc, h99⟩ := h
    · rw [hostCycle_of_halted hst]
    · rw [hostCycle_of_halt hst (decodeAt_halt.2 ⟨hpc, h99⟩)]
  · have hd : decodeAt s ≠ .ok .halt := by
      intro hd
      simp [firstFailingCheck_of_halt false hd] at hf
    exact hostCycle_of_stepUnder (stepUnder_of_failing_check hst hf) hd
  · have hd : decodeAt s ≠ .ok .halt := fun hd => hcell (decodeAt_halt.1 hd).2
    obtain ⟨t, ht, hend, -⟩ := stepUnder_of_no_failing_check hst hnone
    rw [hostCycle_of_stepUnder ht hd, resultOf_eq, if_neg hend]

end Sys2Proof.Machine
end

section
/-! Reset, load and peek (70_reset_and_hazards.md R140 to R144, R146, R156). -/

namespace Sys2Proof.Machine

/-- R143 past the array: the first write that fails is the one at address N. -/
theorem loadCells_overflows {i : Nat} {program : List Int} {s : State} (hi : i ≤ s.params.memCells)
    (hlong : s.params.memCells < i + program.length) :
    loadCells i program s = .error (.outOfRangeAccess s.params.memCells) := by
  induction program generalizing i s with
  | nil => exact absurd hlong (Nat.not_lt.2 hi)
  | cons v rest ih =>
    rw [loadCells]
    rcases Nat.lt_or_eq_of_le hi with hlt | rfl
    · have hwrite : memWrite (i : Int) v s = .ok { s with mem := Memory.put s.mem i v } :=
        memWrite_ok.2 ⟨inRange_natCast.2 hlt, rfl⟩
      rw [List.length_cons] at hlong
      rw [hwrite]
      exact ih (s := { s with mem := Memory.put s.mem i v }) hlt (by simpa using by omega)
    · rw [memWrite_error.2 ⟨inRange_eq_false_iff.2 (.inr (Int.le_refl _)), rfl⟩]

/-- Everything a load that is taken can do: its values are of Cell, and it ends where the memory load ends, or
FAULTED with its memory forgotten. -/
theorem hostLoad_next {s t : State} {program : List Int} :
    hostLoad program s = .next t ↔ (∀ v ∈ program, inCell s.params.cellWidth v = true) ∧
      (loadCells 0 program (freshStart s) = .ok t ∨
        ∃ f, loadCells 0 program (freshStart s) = .error f ∧ t = raise f (forgetMemory (freshStart s))) := by
  unfold hostLoad
  cases hfind : program.find? (fun v => !inCell s.params.cellWidth v) with
  | some v =>
    have hv : v ∈ program ∧ inCell s.params.cellWidth v = false :=
      ⟨List.mem_of_find?_eq_some hfind, by simpa using List.find?_some hfind⟩
    simp only [reduceCtorEq, false_iff, not_and]
    intro hcell
    simp [hcell v hv.1] at hv
  | none =>
    have hcell : ∀ v ∈ program, inCell s.params.cellWidth v = true := by simpa using hfind
    rw [and_iff_right hcell]
    cases loadCells 0 program (freshStart s) <;> simp [@eq_comm _ t]

/-- Settles O42: `loadCells_fits` and `loadCells_overflows` from address 0, and what a taken load says of its
values. -/
theorem memoryLoadOverwritesAPrefix : Obligations.MemoryLoadOverwritesAPrefix := by
  refine ⟨fun s program hwf hlen => ?_, fun s program hlong => ?_, fun s t program h => (hostLoad_next.1 h).1⟩
  · obtain ⟨m, hload, -, hother, hcells⟩ := loadCells_fits (i := 0) hwf (by rwa [Nat.zero_add])
    refine ⟨m, hload, fun i hi => ?_, fun i hi => hother i (.inr (by rwa [Nat.zero_add]))⟩
    simpa using hcells i hi
  · exact loadCells_overflows (Nat.zero_le _) (by rwa [Nat.zero_add])

/-- Settles O43: a program that fits is `hostLoad_of_programWf`, and one that does not stops the memory load at
address N. -/
theorem loadStartsAProgram : Obligations.LoadStartsAProgram := by
  intro s program hcell
  constructor
  · intro hlen
    obtain ⟨m, hload, hcells⟩ := hostLoad_of_programWf (s := s) (program := program) (by simp [programWf, hcell, hlen])
    exact ⟨_, hload, fun i _ => hcells i, fun i hi => (hcells i).trans (List.getD_eq_default _ _ hi),
      rfl, rfl, rfl, rfl, rfl⟩
  · intro hlong
    have hover : loadCells 0 program (freshStart s) = .error (.outOfRangeAccess s.params.memCells) :=
      loadCells_overflows (Nat.zero_le _) (by simpa using hlong)
    exact ⟨_, hostLoad_next.2 ⟨List.all_eq_true.1 hcell, .inr ⟨_, hover, rfl⟩⟩, rfl, rfl, rfl, rfl, rfl⟩

/-- Reset keeps the parameters and the draw counter alone (log entry 5). -/
theorem freshStart_eq (s : State) : freshStart s = { State.resetWith s.params with freeDraws := s.freeDraws } := rfl

/-- A load forgets everything but the parameters and the draw counter. -/
theorem hostLoad_congr {s s' : State} (program : List Int) (hparams : s.params = s'.params)
    (hdraws : s.freeDraws = s'.freeDraws) : hostLoad program s = hostLoad program s' := by
  have hstart : freshStart s = freshStart s' := by rw [freshStart_eq, freshStart_eq, hparams, hdraws]
  rw [hostLoad, hostLoad, hstart, hparams]

/-- Settles O44: neither a load that fits nor reset changes the two fields that a load keeps. -/
theorem loadResetLoadIsLoad : Obligations.LoadResetLoadIsLoad := by
  refine ⟨fun s t program h hload => ?_, fun s s' program => hostLoad_congr program, freshStart_eq⟩
  obtain ⟨m, hfits, -⟩ := hostLoad_of_programWf h
  obtain rfl : { freshStart s with mem := m } = t := Host.Outcome.next.inj (hfits.symm.trans hload)
  exact (hostLoad_congr program rfl rfl).trans hload

/-- Settles O41: the updates' own field lemmas, and the cleared memory lists no cell. -/
theorem resetClearsEverything : Obligations.ResetClearsEverything := by
  refine ⟨fun s => ⟨Memory.get_nil, ?_⟩, fun s => rfl, fun s => ⟨Memory.get_nil, rfl⟩⟩
  exact ⟨freshStart_pc s, freshStart_st s, freshStart_err s, freshStart_runCount s, freshStart_params s⟩

/-- Settles O47: peek is MemRead, and answers no state. -/
theorem peekReadsOneCell : Obligations.PeekReadsOneCell :=
  readOfOneCell

end Sys2Proof.Machine
end

section
/-! Machine.init (70_reset_and_hazards.md R145, R150): its writes in list order, and the first bad address. -/

namespace Sys2Proof.Machine

/-- The last value an override list gives for a cell, if it gives one. -/
def lastOverride (overrides : List (Int × Int)) (x : Nat) : Option Int :=
  (overrides.reverse.find? fun o : Int × Int => decide (o.1 = (x : Int))).map Prod.snd

@[simp] theorem lastOverride_nil (x : Nat) : lastOverride [] x = none := rfl

/-- A later pair for the cell wins over the first one. -/
theorem lastOverride_cons (a v : Int) (rest : List (Int × Int)) (x : Nat) :
    lastOverride ((a, v) :: rest) x = (lastOverride rest x).or (if a = (x : Int) then some v else none) := by
  rw [lastOverride, List.reverse_cons, List.find?_append, Option.map_or, ← lastOverride]
  by_cases hx : a = (x : Int) <;> simp [hx]

/-- R145 with every address in range: each cell holds the last value given for it, or else what it held. -/
theorem applyOverrides_inRange {overrides : List (Int × Int)} {s : State} (hwf : Memory.wf s.mem = true)
    (hrange : ∀ o ∈ overrides, inRange s o.1 = true) :
    ∃ m, applyOverrides overrides s = { s with mem := m } ∧
      ∀ x, Memory.get m x = (lastOverride overrides x).getD (Memory.get s.mem x) := by
  induction overrides generalizing s with
  | nil => exact ⟨s.mem, rfl, fun _ => rfl⟩
  | cons o rest ih =>
    obtain ⟨a, v⟩ := o
    obtain ⟨ha, hrest⟩ := List.forall_mem_cons.1 hrange
    obtain ⟨m, happly, hget⟩ :=
      ih (s := { s with mem := Memory.put s.mem a.toNat v }) (Memory.put_wf _ v hwf) hrest
    refine ⟨m, by rw [applyOverrides, memWrite_ok.2 ⟨ha, rfl⟩]; exact happly, fun x => ?_⟩
    have haddr : x = a.toNat ↔ a = (x : Int) := by
      have := (inRange_iff.1 ha).1
      omega
    rw [hget, lastOverride_cons, Memory.get_put hwf]
    simp only [haddr]
    cases lastOverride rest x with
    | some w => rfl
    | none => by_cases hx : a = (x : Int) <;> simp [hx]

/-- The first bad address ends the writes: it is raised where the pairs before it left the machine. -/
theorem applyOverrides_stops {earlier later : List (Int × Int)} {a v : Int} {s : State}
    (hrange : ∀ o ∈ earlier, inRange s o.1 = true) (hbad : inRange s a = false) :
    applyOverrides (earlier ++ (a, v) :: later) s = raise (.outOfRangeAccess a) (applyOverrides earlier s) := by
  induction earlier generalizing s with
  | nil => simp only [List.nil_append, applyOverrides, memWrite_error.2 ⟨hbad, rfl⟩]
  | cons o rest ih =>
    obtain ⟨b, w⟩ := o
    obtain ⟨hb, hrest⟩ := List.forall_mem_cons.1 hrange
    rw [List.cons_append, applyOverrides, applyOverrides, memWrite_ok.2 ⟨hb, rfl⟩]
    exact ih (s := { s with mem := Memory.put s.mem b.toNat w }) hrest hbad

/-- R150 for a machine that is not running. -/
theorem hostInit_stopped {s : State} (hst : s.st ≠ .running) (overrides : List (Int × Int)) :
    hostInit overrides s = .refused (.initWhenStopped s.st) := by
  rcases Status.ne_running_iff.1 hst with h | h <;> simp [hostInit, h]

/-- An init of a running machine with values of Cell is taken whole. -/
theorem hostInit_running {s : State} {overrides : List (Int × Int)} (hst : s.st = .running)
    (h : overridesWf s.params overrides = true) : hostInit overrides s = .next (applyOverrides overrides s) := by
  have hfind : overrides.find? (fun o => !inCell s.params.cellWidth o.2) = none := by
    simpa [overridesWf] using h
  simp only [hostInit, hst, hfind]

/-- Settles O45: with every address in range `applyOverrides_inRange` says what each cell holds, and otherwise
`applyOverrides_stops` says where the writes end. -/
theorem initWritesInOrder : Obligations.InitWritesInOrder := by
  intro s overrides hwf hst hcell
  simp only [← inRange_iff]
  constructor
  · intro hrange
    obtain ⟨m, happly, hget⟩ := applyOverrides_inRange hwf hrange
    exact ⟨m, by rw [hostInit_running hst hcell, happly], hget⟩
  · rintro earlier a v later rfl hrange hbad
    have hearlier : overridesWf s.params earlier = true := by
      rw [overridesWf, List.all_append, Bool.and_eq_true] at hcell
      exact hcell.1
    refine ⟨_, hostInit_running hst hearlier, ?_⟩
    rw [hostInit_running hst hcell, applyOverrides_stops hrange (inRange_eq_false_iff.2 hbad)]

/-- Settles O46: the refusal of a stopped machine, and the answer of a running one. -/
theorem initNeedsARunningMachine : Obligations.InitNeedsARunningMachine :=
  ⟨fun _ overrides hst => hostInit_stopped hst overrides, fun _ _ hst h => ⟨_, hostInit_running hst h⟩⟩

end Sys2Proof.Machine
end

section
/-! An encoding stored in memory (30_encoding.md R60, R62 to R66): the decoder at pc answers an instruction exactly when
the whole instruction stands encoded there. -/

namespace Sys2Proof.Machine

/-- R60: an instruction is as many cells as its width says. -/
theorem length_encode (i : Instr) : (encode i).length = i.width := by
  cases i <;> rfl

theorem width_pos (i : Instr) : 0 < i.width := by
  cases i <;> exact Nat.succ_pos _

theorem memRead_natCast_ok {s : State} {a : Nat} {v : Int} :
    memRead (a : Int) s = .ok v ↔ a < s.params.memCells ∧ Memory.get s.mem a = v := by
  rw [memRead_ok, inRange_natCast, Int.toNat_natCast]

/-- Decode answers the instruction whose cells stand from pc on, all of them in the array, and no other. -/
theorem decodeAt_ok_iff_encoded {s : State} {i : Instr} :
    decodeAt s = .ok i ↔ s.pc + i.width ≤ s.params.memCells ∧
      ∀ k, k < i.width → (encode i)[k]? = some (Memory.get s.mem (s.pc + k)) := by
  rw [decodeAt, decodeWith_ok]
  simp only [memRead_natCast_ok, Prod.forall, List.mem_zipIdx_iff_getElem?]
  constructor
  · intro h
    have hcell (k : Nat) (hk : k < i.width) := h _ k (List.getElem?_eq_getElem ((length_encode i).symm ▸ hk))
    constructor
    · obtain ⟨hlast, -⟩ := hcell (i.width - 1) (Nat.sub_one_lt_of_lt (width_pos i))
      omega
    · intro k hk
      obtain ⟨-, hget⟩ := hcell k hk
      rw [hget, List.getElem?_eq_getElem]
  · rintro ⟨hfits, hcells⟩ v k hv
    obtain ⟨hk, -⟩ := List.getElem?_eq_some_iff.1 hv
    rw [length_encode] at hk
    exact ⟨by omega, Option.some.inj ((hcells k hk).symm.trans hv)⟩

/-- Settles O3: `loadCells_fits` puts the encoding at pc, and `decodeAt_ok_iff_encoded` says, both ways, that Decode
answers what stands encoded there. -/
theorem storedEncodingIsFetched : Obligations.StoredEncodingIsFetched := by
  refine ⟨fun s i hwf hfits => ?_, fun s i h => decodeAt_ok_iff_encoded.1 h⟩
  rw [← length_encode] at hfits
  obtain ⟨m, hload, -, hother, hcells⟩ := loadCells_fits hwf hfits
  rw [length_encode] at hfits hother hcells
  refine ⟨_, hload, rfl, decodeAt_ok_iff_encoded.2 ⟨hfits, fun k hk => ?_⟩, hother⟩
  rw [hcells k hk, List.getD_eq_getElem _ _ ((length_encode i).symm ▸ hk), List.getElem?_eq_getElem]

end Sys2Proof.Machine
end

section
/-! The wrap into Cell (00_scope.md R9). -/

namespace Sys2Proof.Machine

/-- Where W has a range, the wrapped value is in it. -/
theorem inCell_wrapCell {w : CellWidth} (h : w.wf = true) (v : Int) : inCell w (wrapCell w v) = true := by
  cases w with
  | unbounded => rfl
  | bits n =>
    have hn : 1 ≤ n := of_decide_eq_true h
    have hpos : 0 < 2 ^ (n - 1) := Nat.two_pow_pos _
    rw [inCell_bits, wrapCell, two_pow_width hn]
    generalize 2 ^ (n - 1) = m at hpos
    have hlow := Int.emod_nonneg (v + m) (b := (2 * m : Nat)) (by omega)
    have hhigh := Int.emod_lt_of_pos (v + m) (b := (2 * m : Nat)) (by omega)
    omega

/-- The wrap changes a value by a multiple of 2^W. -/
theorem two_pow_dvd_sub_wrapCell (n : Nat) (v : Int) : (2 ^ n : Int) ∣ v - wrapCell (.bits n) v := by
  have hdvd := Int.dvd_self_sub_emod (x := v + ((2 ^ (n - 1) : Nat) : Int)) (m := ((2 ^ n : Nat) : Int))
  rw [wrapCell, sub_sub_eq_add_sub]
  exact_mod_cast hdvd

theorem wrapCell_of_inCell {n : Nat} {v : Int} (hn : 1 ≤ n) (h : inCell (.bits n) v = true) :
    wrapCell (.bits n) v = v := by
  rw [inCell_bits] at h
  rw [wrapCell, two_pow_width hn]
  generalize 2 ^ (n - 1) = m at h
  rw [Int.emod_eq_of_lt (by omega) (by omega), add_sub_cancel_right]

/-- Settles O9: the range, the residue, the values left alone, and the bit vector's signed reading. -/
theorem wrapIsTwosComplement : Obligations.WrapIsTwosComplement := by
  intro n v hn
  have hcell : inCell (.bits n) (wrapCell (.bits n) v) = true := inCell_wrapCell (w := .bits n) (decide_eq_true hn) v
  refine ⟨hcell, two_pow_dvd_sub_wrapCell n v, ⟨fun heq => ?_, wrapCell_of_inCell hn⟩, wrapCell_bits hn v⟩
  rwa [heq] at hcell

end Sys2Proof.Machine
end

section
/-! The refusal of values outside Cell (70_reset_and_hazards.md R143, R145; decision D26, log entry 9). -/

namespace Sys2Proof.Machine

/-- A load looks for a value outside Cell before anything else, and names the first one. -/
theorem hostLoad_refused {program : List Int} {s : State} {v : Int} (hv : v ∈ program)
    (hcell : inCell s.params.cellWidth v = false) :
    ∃ w, w ∈ program ∧ inCell s.params.cellWidth w = false ∧
      hostLoad program s = .refused (.valueNotInCell w) := by
  obtain ⟨w, hfind⟩ := Option.isSome_iff_exists.1
    (List.find?_isSome (p := fun v => !inCell s.params.cellWidth v).2 ⟨v, hv, by simp [hcell]⟩)
  exact ⟨w, List.mem_of_find?_eq_some hfind, by simpa using List.find?_some hfind, by rw [hostLoad, hfind]⟩

/-- An init of a running machine does so too. -/
theorem hostInit_refused {overrides : List (Int × Int)} {s : State} (hst : s.st = .running)
    (h : overridesWf s.params overrides = false) :
    ∃ o ∈ overrides, inCell s.params.cellWidth o.2 = false ∧
      hostInit overrides s = .refused (.valueNotInCell o.2) := by
  obtain ⟨v, hv, hcell⟩ := List.all_eq_false.1 h
  obtain ⟨o, hfind⟩ := Option.isSome_iff_exists.1
    (List.find?_isSome (p := fun o => !inCell s.params.cellWidth o.2).2 ⟨v, hv, by simpa using hcell⟩)
  exact ⟨o, List.mem_of_find?_eq_some hfind, by simpa using List.find?_some hfind, by simp only [hostInit, hst, hfind]⟩

/-- Settles O50: both calls search their list first, and the value found is refused by name. -/
theorem valuesOutsideCellAreRefused : Obligations.ValuesOutsideCellAreRefused :=
  ⟨fun _ _ _ => hostLoad_refused, fun _ _ => hostInit_refused⟩

end Sys2Proof.Machine
end

section
/-! The invariant (10_state.md R21, R24, R27, R33): kept by every write and every raise, and so by every step and every
host operation. -/

namespace Sys2Proof.Machine

/-! ### One write, one raise -/

theorem put_memoryOk {s : State} {a v : Int} (hs : s.MemoryOk) (ha : inRange s a = true)
    (hv : inCell s.params.cellWidth v = true) : State.MemoryOk { s with mem := Memory.put s.mem a.toNat v } := by
  obtain ⟨hwf, hwithin⟩ := hs
  have hlt : a.toNat < s.params.memCells := by
    rw [inRange_iff] at ha
    omega
  exact ⟨Memory.put_wf _ _ hwf, Memory.put_within hlt hv hwithin⟩

/-- While the machine runs, a write of a value of Cell puts only the memory at stake. -/
theorem memWrite_inv {s t : State} {a v : Int} (hs : s.Inv) (hst : s.st = .running)
    (hv : inCell s.params.cellWidth v = true) (h : memWrite a v s = .ok t) : t.Inv := by
  obtain ⟨hparams, hmem, hpc, -, herr⟩ := hs
  obtain ⟨ha, rfl⟩ := memWrite_ok.1 h
  exact ⟨hparams, put_memoryOk hmem ha hv, hpc, by simp [State.HaltOk, hst], herr⟩

/-- A raise leaves HALTED, and sets st and err together. -/
theorem raise_inv (f : FaultRecord) {s : State} (hs : s.Inv) : (raise f s).Inv := by
  obtain ⟨hparams, hmem, hpc, -, -⟩ := hs
  exact ⟨hparams, hmem, hpc, by simp [State.HaltOk], by simp [State.ErrOk]⟩

/-! ### Steps -/

/-- The ALU answers the result when it is a value of Cell, and otherwise the wrapped result, which is one. -/
theorem aluResult_inCell {p : Params} {r v : Int} {pc : Nat} (hp : p.wf = true) (h : aluResult p r pc = .ok v) :
    inCell p.cellWidth v = true := by
  obtain ⟨-, hwidth⟩ := Bool.and_eq_true_iff.1 hp
  obtain ⟨hcell, rfl⟩ | ⟨-, -, rfl⟩ := aluResult_ok.1 h
  · exact hcell
  · exact inCell_wrapCell hwidth r

theorem stepUnder_params {u : Bool} {s t : State} (h : stepUnder u s = .next t) : t.params = s.params := by
  obtain ⟨f, rfl, -⟩ | ⟨-, rfl⟩ | ⟨-, m, rfl⟩ := stepUnder_ends h <;> simp

/-- R21: the one cell a step may write gets the ALU's answer. -/
theorem stepUnder_memoryOk {u : Bool} {s t : State} (hp : s.params.wf = true) (hs : s.MemoryOk)
    (h : stepUnder u s = .next t) : t.MemoryOk := by
  by_cases ht : t.st = .running
  · obtain ⟨-, -, v, hc, halu, rfl⟩ := stepUnder_completes h ht
    simpa [State.MemoryOk] using put_memoryOk hs hc (aluResult_inCell hp halu)
  · rwa [State.MemoryOk, stepUnder_mem_of_stopped h ht, stepUnder_params h]

/-- R24: pc moves on past an instruction that lies whole in the array, by its 4 cells, or stays. -/
theorem stepUnder_pcOk {u : Bool} {s t : State} (hs : s.PcOk) (h : stepUnder u s = .next t) : t.PcOk := by
  obtain ⟨hmod, hle⟩ := hs
  obtain ⟨hrunning, hstopped⟩ := pcAdvancesByFourOrStays u s t h
  rw [State.PcOk, stepUnder_params h]
  by_cases ht : t.st = .running
  · obtain ⟨hpc, hlt, -⟩ := hrunning ht
    omega
  · rw [hstopped ht]
    exact ⟨hmod, hle⟩

theorem stepUnder_inv {u : Bool} {s t : State} (hs : s.Inv) (h : stepUnder u s = .next t) : t.Inv := by
  obtain ⟨hparams, hmem, hpc, -, herr⟩ := hs
  exact ⟨stepUnder_params h ▸ hparams, stepUnder_memoryOk hparams hmem h, stepUnder_pcOk hpc h, stepUnder_haltOk h,
    stepUnder_errOk herr h⟩

/-- Settles O33: each part of the invariant is kept by every step, under run or not (`stepUnder_inv`). -/
theorem stepKeepsInvariant : Obligations.StepKeepsInvariant :=
  fun _ _ => stepUnder_inv

/-! ### Host operations -/

theorem freshStart_inv {s : State} (hs : s.Inv) : (freshStart s).Inv := by
  obtain ⟨hparams, -⟩ := hs
  exact State.inv_of_fresh_start hparams (resetWith_memoryOk _) rfl rfl rfl

/-- A free value (R144) is wrapped into Cell, and stands at an address of the array. -/
theorem freeMemory_within {p : Params} (hp : p.wf = true) (draw : Nat) :
    Memory.within p (freeMemory p draw) = true := by
  obtain ⟨-, hwidth⟩ := Bool.and_eq_true_iff.1 hp
  rw [Memory.within_iff]
  intro e he
  obtain ⟨a, ha, rfl⟩ := List.mem_map.1 (List.mem_of_mem_filter he)
  exact ⟨List.mem_range.1 ha, inCell_wrapCell hwidth _⟩

theorem loadCells_inv {program : List Int} {i : Nat} {s t : State} (hs : s.Inv) (hst : s.st = .running)
    (hcell : ∀ v ∈ program, inCell s.params.cellWidth v = true) (h : loadCells i program s = .ok t) : t.Inv := by
  induction program generalizing i s with
  | nil =>
    obtain rfl := Except.ok.inj h
    exact hs
  | cons v rest ih =>
    obtain ⟨hv, hrest⟩ := List.forall_mem_cons.1 hcell
    rw [loadCells] at h
    cases hwrite : memWrite (i : Int) v s with
    | error f => simp [hwrite] at h
    | ok s' =>
      rw [hwrite] at h
      have hs' : s'.Inv := memWrite_inv hs hst hv hwrite
      obtain ⟨-, rfl⟩ := memWrite_ok.1 hwrite
      exact ih hs' hst hrest h

/-- A load that fits is a fresh start and writes of values of Cell; one that does not leaves a free memory and a
raise. -/
theorem hostLoad_inv {program : List Int} {s t : State} (hs : s.Inv) (h : hostLoad program s = .next t) : t.Inv := by
  obtain ⟨hcell, hload | ⟨f, -, rfl⟩⟩ := hostLoad_next.1 h
  · exact loadCells_inv (freshStart_inv hs) rfl hcell hload
  · obtain ⟨hparams, -⟩ := hs
    exact raise_inv f
      (State.inv_of_fresh_start hparams ⟨freeMemory_wf _ _, freeMemory_within hparams _⟩ rfl rfl rfl)

theorem applyOverrides_inv {overrides : List (Int × Int)} {s : State} (hs : s.Inv) (hst : s.st = .running)
    (hcell : ∀ o ∈ overrides, inCell s.params.cellWidth o.2 = true) : (applyOverrides overrides s).Inv := by
  induction overrides generalizing s with
  | nil => exact hs
  | cons o rest ih =>
    obtain ⟨a, v⟩ := o
    obtain ⟨hv, hrest⟩ := List.forall_mem_cons.1 hcell
    rw [applyOverrides]
    cases hwrite : memWrite a v s with
    | error f => exact raise_inv f hs
    | ok s' =>
      have hs' : s'.Inv := memWrite_inv hs hst hv hwrite
      obtain ⟨-, rfl⟩ := memWrite_ok.1 hwrite
      exact ih hs' hst hrest

/-- Everything an init that is taken can do: the machine runs, and values of Cell are written in order. -/
theorem hostInit_next {overrides : List (Int × Int)} {s t : State} :
    hostInit overrides s = .next t ↔
      s.st = .running ∧ overridesWf s.params overrides = true ∧ t = applyOverrides overrides s := by
  by_cases hst : s.st = .running
  case neg => simp [hostInit_stopped hst, hst]
  by_cases hcell : overridesWf s.params overrides = true
  · simp [hostInit_running hst hcell, hst, hcell, eq_comm]
  · obtain ⟨o, -, -, hrefused⟩ := hostInit_refused hst (Bool.eq_false_iff.2 hcell)
    simp [hrefused, hcell]

theorem hostInit_inv {overrides : List (Int × Int)} {s t : State} (hs : s.Inv) (h : hostInit overrides s = .next t) :
    t.Inv := by
  obtain ⟨hst, hcell, rfl⟩ := hostInit_next.1 h
  exact applyOverrides_inv hs hst (List.all_eq_true.1 hcell)

/-- A cycle leaves the machine as it was, raises CycleWhenHalted, or takes a step. -/
theorem hostCycle_inv {s : State} (hs : s.Inv) : (hostCycle s).2.Inv := by
  cases hst : s.st with
  | faulted =>
    rw [hostCycle_of_faulted hst]
    exact hs
  | halted =>
    rw [hostCycle_of_halted hst]
    exact raise_inv _ hs
  | running =>
    by_cases hd : decodeAt s = .ok .halt
    · rw [hostCycle_of_halt hst hd]
      exact raise_inv _ hs
    · obtain ⟨t, ht⟩ := stepUnder_running (u := false) hst
      rw [hostCycle_of_stepUnder ht hd]
      exact stepUnder_inv hs ht

/-- What a run that ends has done, in each status of the machine. -/
theorem hostRun_cases {fuel : Nat} {s t : State} {r : HostResult} (h : hostRun fuel s = some (r, t)) :
    (s.st = .faulted ∧ t = s) ∨ (s.st = .halted ∧ t = { s with runCount := 0 }) ∨
      (s.st = .running ∧ runLoop fuel { s with runCount := 0 } = some t) := by
  by_cases hst : s.st = .running
  · exact .inr (.inr ⟨hst, ((hostRun_eq_some hst).1 h).1⟩)
  rcases Status.ne_running_iff.1 hst with hst | hst
  · rw [hostRun_faulted hst] at h
    exact .inl ⟨hst, (congrArg Prod.snd (Option.some.inj h)).symm⟩
  · rw [hostRun_halted hst] at h
    exact .inr (.inl ⟨hst, (congrArg Prod.snd (Option.some.inj h)).symm⟩)

/-- Whatever the machine's status, a run that ends has changed at most run_count, or taken steps. -/
theorem hostRun_keeps_in_any_status {P : State → Prop} (hstep : ∀ {s t}, P s → stepUnder true s = .next t → P t)
    {fuel : Nat} {s t : State} {r : HostResult} (hs : P s) (hzeroed : P { s with runCount := 0 })
    (h : hostRun fuel s = some (r, t)) : P t := by
  obtain ⟨-, rfl⟩ | ⟨-, rfl⟩ | ⟨hst, -⟩ := hostRun_cases h
  · exact hs
  · exact hzeroed
  · exact hostRun_keeps hstep hst hzeroed h

theorem hostRun_inv {fuel : Nat} {s t : State} {r : HostResult} (hs : s.Inv) (h : hostRun fuel s = some (r, t)) :
    t.Inv :=
  hostRun_keeps_in_any_status (P := State.Inv) stepUnder_inv hs hs h

/-- Settles O34: each operation keeps the invariant by its own lemma. -/
theorem hostOperationsKeepInvariant : Obligations.HostOperationsKeepInvariant :=
  fun _ hs => ⟨freshStart_inv hs, fun _ _ => hostLoad_inv hs, fun _ _ => hostInit_inv hs, hostCycle_inv hs,
    fun _ _ _ => hostRun_inv hs⟩

/-! ### Reachable states -/

theorem loadCells_params {program : List Int} {i : Nat} {s t : State} (h : loadCells i program s = .ok t) :
    t.params = s.params := by
  obtain ⟨m, hload⟩ | ⟨j, hload⟩ := loadCells_cases program i s
  · obtain rfl := Except.ok.inj (hload.symm.trans h)
    rfl
  · simp [hload] at h

theorem hostLoad_params {program : List Int} {s t : State} (h : hostLoad program s = .next t) :
    t.params = s.params := by
  obtain ⟨-, hload | ⟨f, -, rfl⟩⟩ := hostLoad_next.1 h
  · exact (loadCells_params hload).trans (freshStart_params s)
  · rfl

theorem hostInit_params {overrides : List (Int × Int)} {s t : State} (h : hostInit overrides s = .next t) :
    t.params = s.params := by
  obtain ⟨-, -, rfl⟩ := hostInit_next.1 h
  obtain ⟨m, st, err, happly, -⟩ := applyOverrides_frame overrides s
  rw [happly]

theorem hostCycle_params (s : State) : (hostCycle s).2.params = s.params := by
  obtain ⟨-, hend⟩ | ⟨f, hend, -⟩ | ⟨-, m, hend⟩ := hostCycle_ends s <;> simp [hend]

theorem hostRun_params {fuel : Nat} {s t : State} {r : HostResult} (h : hostRun fuel s = some (r, t)) :
    t.params = s.params :=
  hostRun_keeps_in_any_status (P := fun u => u.params = s.params) (fun hs hu => (stepUnder_params hu).trans hs) rfl rfl
    h

/-- Settles O35: power-on meets the invariant, and steps and host operations keep it and the parameters. -/
theorem reachableStatesMeetInvariant : Obligations.ReachableStatesMeetInvariant := by
  intro p s hp h
  induction h with
  | powerOn => exact ⟨resetWith_inv hp, rfl⟩
  | byStep _ hstep ih => exact ⟨stepUnder_inv ih.1 hstep, (stepUnder_params hstep).trans ih.2⟩
  | byReset _ ih => exact ⟨freshStart_inv ih.1, ih.2⟩
  | byLoad _ hload ih => exact ⟨hostLoad_inv ih.1 hload, (hostLoad_params hload).trans ih.2⟩
  | byInit _ hinit ih => exact ⟨hostInit_inv ih.1 hinit, (hostInit_params hinit).trans ih.2⟩
  | byCycle _ ih => exact ⟨hostCycle_inv ih.1, (hostCycle_params _).trans ih.2⟩
  | byRun _ hrun ih => exact ⟨hostRun_inv ih.1 hrun, (hostRun_params hrun).trans ih.2⟩

end Sys2Proof.Machine
end

section
/-! Canonical memories (20_memory.md R45; log entry 2): the contents determine the list. -/

namespace Sys2Proof.Machine

theorem Memory.get_cons_same (k : Nat) (v : Int) (rest : Memory) : Memory.get ((k, v) :: rest) k = v := by
  rw [Memory.get, if_pos rfl]

theorem Memory.get_cons_other {k a : Nat} (v : Int) (rest : Memory) (h : k ≠ a) :
    Memory.get ((k, v) :: rest) a = Memory.get rest a := by
  rw [Memory.get, if_neg h]

/-- In canonical form the first listed address is the lowest cell that is not 0. -/
theorem Memory.le_of_get_ne_zero {k a : Nat} {v : Int} {rest : Memory} (hwf : Memory.wf ((k, v) :: rest) = true)
    (ha : Memory.get ((k, v) :: rest) a ≠ 0) : k ≤ a := by
  obtain ⟨-, habove, -⟩ := Memory.wf_cons.1 hwf
  by_contra hlt
  refine ha (Memory.get_of_all_above fun e he => ?_)
  rcases List.mem_cons.1 he with rfl | he
  · exact Nat.not_le.1 hlt
  · exact Nat.lt_trans (Nat.not_le.1 hlt) (habove e he)

/-- The first entries stand at the lowest cell that is not 0, and hold its value. -/
theorem Memory.head_eq_of_get_eq {k k' : Nat} {v v' : Int} {rest rest' : Memory}
    (hm : Memory.wf ((k, v) :: rest) = true) (hm' : Memory.wf ((k', v') :: rest') = true)
    (hget : ∀ a, Memory.get ((k, v) :: rest) a = Memory.get ((k', v') :: rest') a) : k = k' ∧ v = v' := by
  obtain ⟨hv, -⟩ := Memory.wf_cons.1 hm
  obtain ⟨hv', -⟩ := Memory.wf_cons.1 hm'
  have hk : Memory.get ((k', v') :: rest') k = v := (hget k).symm.trans (Memory.get_cons_same k v rest)
  have hk' : Memory.get ((k, v) :: rest) k' = v' := (hget k').trans (Memory.get_cons_same k' v' rest')
  obtain rfl : k = k' :=
    Nat.le_antisymm (Memory.le_of_get_ne_zero hm (hk' ▸ hv')) (Memory.le_of_get_ne_zero hm' (hk ▸ hv))
  exact ⟨rfl, hk.symm.trans (Memory.get_cons_same k v' rest')⟩

/-- Behind the same first entry the rests read alike: as 0 at its address, and as the whole lists elsewhere. -/
theorem Memory.get_rest_eq {k : Nat} {v : Int} {rest rest' : Memory} (hm : Memory.wf ((k, v) :: rest) = true)
    (hm' : Memory.wf ((k, v) :: rest') = true)
    (hget : ∀ a, Memory.get ((k, v) :: rest) a = Memory.get ((k, v) :: rest') a) (a : Nat) :
    Memory.get rest a = Memory.get rest' a := by
  obtain ⟨-, habove, -⟩ := Memory.wf_cons.1 hm
  obtain ⟨-, habove', -⟩ := Memory.wf_cons.1 hm'
  by_cases ha : k = a
  · subst ha
    rw [Memory.get_of_all_above habove, Memory.get_of_all_above habove']
  · rw [← Memory.get_cons_other v rest ha, hget, Memory.get_cons_other v rest' ha]

theorem Memory.get_head_ne_get_nil {k : Nat} {v : Int} {rest : Memory} (hm : Memory.wf ((k, v) :: rest) = true) :
    Memory.get ((k, v) :: rest) k ≠ Memory.get [] k := by
  obtain ⟨hv, -⟩ := Memory.wf_cons.1 hm
  rwa [Memory.get_cons_same]

/-- Settles O8, entry by entry: the first entries are equal, and behind them the rests read alike. -/
theorem canonicalMemoryIsItsContents : Obligations.CanonicalMemoryIsItsContents := by
  intro m m' hm hm' hget
  induction m generalizing m' with
  | nil =>
    cases m' with
    | nil => rfl
    | cons x' rest' => exact absurd (hget x'.1).symm (Memory.get_head_ne_get_nil hm')
  | cons x rest ih =>
    cases m' with
    | nil => exact absurd (hget x.1) (Memory.get_head_ne_get_nil hm)
    | cons x' rest' =>
      obtain rfl : x = x' := Prod.ext_iff.2 (Memory.head_eq_of_get_eq hm hm' hget)
      obtain ⟨-, -, hrest⟩ := Memory.wf_cons.1 hm
      obtain ⟨-, -, hrest'⟩ := Memory.wf_cons.1 hm'
      rw [ih rest' hrest hrest' (Memory.get_rest_eq hm hm' hget)]

end Sys2Proof.Machine
end

section
/-! Every run ends (40_execution_cycle.md R86, R87; 10_state.md R24; log entry 7), and so do the host model's runs
(70_reset_and_hazards.md R151). -/

namespace Sys2Proof.Machine

/-- Each step but the last moves pc on by 4 within the array. -/
theorem exists_runLoop_eq_some {fuel : Nat} {s : State} (hfuel : (s.params.memCells - s.pc) / 4 + 1 ≤ fuel) :
    ∃ t, runLoop fuel s = some t := by
  induction fuel generalizing s with
  | zero => omega
  | succ fuel ih =>
    by_cases hst : s.st = .running
    case neg => exact ⟨s, runLoop_stopped hst _⟩
    obtain ⟨s', hs'⟩ := stepUnder_running (u := true) hst
    rw [runLoop_running hst hs']
    by_cases hst' : s'.st = .running
    · obtain ⟨hpc, hlt, -⟩ := (pcAdvancesByFourOrStays true s s' hs').1 hst'
      refine ih ?_
      rw [stepUnder_params hs', hpc]
      omega
    · exact ⟨s', runLoop_stopped hst' _⟩

theorem exists_hostRun_eq_some {fuel : Nat} {s : State} (hfuel : (s.params.memCells - s.pc) / 4 + 1 ≤ fuel) :
    ∃ r t, hostRun fuel s = some (r, t) := by
  cases hst : s.st with
  | faulted => exact ⟨_, _, hostRun_faulted hst fuel⟩
  | halted => exact ⟨_, _, hostRun_halted hst fuel⟩
  | running =>
    obtain ⟨t, ht⟩ := exists_runLoop_eq_some (s := { s with runCount := 0 }) hfuel
    exact ⟨_, t, (hostRun_eq_some hst).2 ⟨ht, rfl⟩⟩

/-- A run that was seen to end is seen to end so by every longer observation. -/
theorem hostRun_mono {fuel fuel' : Nat} (hle : fuel ≤ fuel') {s t : State} {r : HostResult}
    (h : hostRun fuel s = some (r, t)) : hostRun fuel' s = some (r, t) := by
  cases hst : s.st with
  | faulted => rwa [hostRun_faulted hst] at h ⊢
  | halted => rwa [hostRun_halted hst] at h ⊢
  | running =>
    rw [hostRun_eq_some hst, runLoop_eq_some] at h ⊢
    obtain ⟨⟨k, hk, hend⟩, hr⟩ := h
    exact ⟨⟨k, hk.trans hle, hend⟩, hr⟩

theorem hostRun_unique {fuel fuel' : Nat} {s t t' : State} {r r' : HostResult} (h : hostRun fuel s = some (r, t))
    (h' : hostRun fuel' s = some (r', t')) : r = r' ∧ t = t' := by
  have hlong := hostRun_mono (Nat.le_max_left fuel fuel') h
  have hlong' := hostRun_mono (Nat.le_max_right fuel fuel') h'
  simpa using hlong.symm.trans hlong'

theorem hostRun_ends {fuel : Nat} {s t : State} {r : HostResult} (h : hostRun fuel s = some (r, t)) :
    t.st = .halted ∨ t.st = .faulted := by
  obtain ⟨hst, rfl⟩ | ⟨hst, rfl⟩ | ⟨-, hloop⟩ := hostRun_cases h
  · exact .inr hst
  · exact .inl hst
  · exact (Status.ne_running_iff.1 (runLoop_not_running hloop)).symm

/-- Outcomes (a) and (b) of R87 together are all the ends that a run can be seen to have. -/
theorem runHalts_or_runFaults_iff {s t : State} :
    RunHalts s t ∨ RunFaults s t ↔ ∃ fuel r, hostRun fuel s = some (r, t) := by
  constructor
  · rintro (⟨-, hrun⟩ | ⟨-, hrun⟩) <;> exact hrun
  · rintro ⟨fuel, r, h⟩
    exact (hostRun_ends h).imp (⟨·, fuel, r, h⟩) (⟨·, fuel, r, h⟩)

/-- Settles O22: the bound on the steps is `exists_hostRun_eq_some`, and `hostRun_unique` says that the end does not
depend on the number of steps observed. -/
theorem everyRunEnds : Obligations.EveryRunEnds := by
  refine ⟨fun s fuel hfuel => ?_, fun s => ?_⟩
  · obtain ⟨r, t, h⟩ := exists_hostRun_eq_some hfuel
    exact ⟨r, t, h, hostRun_ends h⟩
  · obtain ⟨r, t, h⟩ := exists_hostRun_eq_some (Nat.le_refl ((s.params.memCells - s.pc) / 4 + 1))
    refine ⟨fun hdiverges => by simp [hdiverges _] at h, t, runHalts_or_runFaults_iff.2 ⟨_, r, h⟩, fun t' ht' => ?_⟩
    obtain ⟨fuel', r', h'⟩ := runHalts_or_runFaults_iff.1 ht'
    exact (hostRun_unique h' h).2

/-- The host model observes its runs for long enough to see every one of them end as it does (log entry 11). -/
theorem hostRun_runFuel {fuel : Nat} {s t : State} {r : HostResult} (h : hostRun fuel s = some (r, t)) :
    hostRun (runFuel s) s = some (r, t) := by
  have hfuel : (s.params.memCells - s.pc) / 4 + 1 ≤ runFuel s := by
    rw [runFuel]
    omega
  obtain ⟨r', t', h'⟩ := exists_hostRun_eq_some hfuel
  obtain ⟨rfl, rfl⟩ := hostRun_unique h h'
  exact h'

/-- Settles O48: the protocol takes the same four operations in turn, and its run ends as the one observed. -/
theorem partOneProtocol : Obligations.PartOneProtocol := by
  intro s t u w program fuel v hload hinit hrun hpeek
  simp only [partOne, loadInitRun, hload, hinit, runAndPeek, hostRun_runFuel hrun, hpeek]

end Sys2Proof.Machine
end

section
/-! The search driver (70_reset_and_hazards.md R152): the grid is in lexicographic order, and the search answers what
the first pair that does not miss the target stops it with. -/

namespace Sys2Proof.Machine

/-- In a list sorted by an asymmetric relation, the first element with an answer is the least one with an answer. -/
theorem findSome?_eq_some_iff_of_pairwise {α β : Type} {r : α → α → Prop} (hasymm : ∀ a b, r a b → ¬ r b a)
    {l : List α} (hl : l.Pairwise r) {f : α → Option β} {b : β} :
    l.findSome? f = some b ↔ ∃ a ∈ l, f a = some b ∧ ∀ x ∈ l, r x a → f x = none := by
  rw [List.findSome?_eq_some_iff]
  constructor
  · rintro ⟨before, a, after, rfl, ha, hbefore⟩
    refine ⟨a, by simp, ha, fun x hx hxa => ?_⟩
    obtain ⟨-, hafter, -⟩ := List.pairwise_append.1 hl
    rcases List.mem_append.1 hx with hx | hx
    · exact hbefore x hx
    · exfalso
      rcases List.mem_cons.1 hx with rfl | hx
      · exact hasymm x x hxa hxa
      · exact hasymm x a hxa ((List.pairwise_cons.1 hafter).1 x hx)
  · rintro ⟨a, hal, ha, hsmaller⟩
    obtain ⟨before, after, rfl⟩ := List.append_of_mem hal
    obtain ⟨-, -, hcross⟩ := List.pairwise_append.1 hl
    exact ⟨before, a, after, rfl, ha, fun x hx => hsmaller x (by simp [hx]) (hcross x hx a (by simp))⟩

/-- R152's order of the candidates: by noun, and for one noun by verb. -/
abbrev PairLt : Nat × Nat → Nat × Nat → Prop :=
  Prod.Lex (· < ·) (· < ·)

theorem pairLt_iff {noun verb noun' verb' : Nat} :
    PairLt (noun', verb') (noun, verb) ↔ noun' < noun ∨ noun' = noun ∧ verb' < verb :=
  Prod.lex_def

theorem PairLt.asymm (p q : Nat × Nat) (h : PairLt p q) : ¬ PairLt q p := by
  obtain ⟨noun, verb⟩ := p
  obtain ⟨noun', verb'⟩ := q
  rw [pairLt_iff] at h ⊢
  omega

theorem mem_searchGrid {bound noun verb : Nat} : (noun, verb) ∈ searchGrid bound ↔ noun < bound ∧ verb < bound := by
  simp [searchGrid]

theorem pairwise_searchGrid (bound : Nat) : (searchGrid bound).Pairwise PairLt := by
  rw [searchGrid, List.pairwise_flatMap]
  constructor
  · intro noun _
    rw [List.pairwise_map]
    exact List.pairwise_lt_range.imp fun hverb => pairLt_iff.2 (.inr ⟨rfl, hverb⟩)
  · refine List.pairwise_lt_range.imp fun {noun noun'} hnoun p hp q hq => ?_
    obtain ⟨verb, -, rfl⟩ := List.mem_map.1 hp
    obtain ⟨verb', -, rfl⟩ := List.mem_map.1 hq
    exact pairLt_iff.2 (.inl hnoun)

/-- The answer a candidate pair stops the search with; none where it gives another value than the target. -/
def stopAt (program : List Int) (target : Int) (s : State) (pair : Nat × Nat) : Option SearchResult :=
  match candidate program pair.1 pair.2 s with
  | .value v => if v = target then some (.found (100 * pair.1 + pair.2)) else none
  | .error e => some (.error e)
  | .refused r => some (.refused r)
  | .unfinished => some .unfinished

section
variable {program : List Int} {target : Int} {s : State} {noun verb : Nat}

theorem stopAt_none :
    stopAt program target s (noun, verb) = none ↔ ∃ v, candidate program noun verb s = .value v ∧ v ≠ target := by
  unfold stopAt
  cases candidate program noun verb s <;> simp

theorem stopAt_found {n : Nat} :
    stopAt program target s (noun, verb) = some (.found n) ↔
      n = 100 * noun + verb ∧ candidate program noun verb s = .value target := by
  unfold stopAt
  cases candidate program noun verb s <;> simp [and_comm, eq_comm]

theorem stopAt_error {e : Option FaultRecord} :
    stopAt program target s (noun, verb) = some (.error e) ↔ candidate program noun verb s = .error e := by
  unfold stopAt
  cases candidate program noun verb s <;> simp

theorem stopAt_ne_notFound (pair : Nat × Nat) : stopAt program target s pair ≠ some .notFound := by
  unfold stopAt
  cases candidate program pair.1 pair.2 s <;> simp

end

theorem searchPairs_eq (pairs : List (Nat × Nat)) (program : List Int) (target : Int) (s : State) :
    searchPairs pairs program target s = (pairs.findSome? (stopAt program target s)).getD .notFound := by
  induction pairs with
  | nil => rfl
  | cons pair rest ih =>
    obtain ⟨noun, verb⟩ := pair
    rw [searchPairs, List.findSome?_cons, stopAt, ih]
    cases candidate program noun verb s with
    | value v => by_cases hv : v = target <;> simp [hv]
    | error e => rfl
    | refused r => rfl
    | unfinished => rfl

theorem search_eq_notFound {program : List Int} {target : Int} {s : State} :
    search program target s = .notFound ↔
      ∀ noun verb, noun < 100 → verb < 100 → stopAt program target s (noun, verb) = none := by
  have hnone : search program target s = .notFound ↔ (searchGrid 100).findSome? (stopAt program target s) = none := by
    rw [search, searchPairs_eq]
    cases hstop : (searchGrid 100).findSome? (stopAt program target s) with
    | none => simp
    | some r =>
      obtain ⟨pair, -, hpair⟩ := List.exists_of_findSome?_eq_some hstop
      simpa using fun hr : r = .notFound => stopAt_ne_notFound pair (hr ▸ hpair)
  rw [hnone, List.findSome?_eq_none_iff]
  simp only [Prod.forall, mem_searchGrid, and_imp]

/-- Any other answer is that of the lexicographically first pair the search stops at. -/
theorem search_eq_iff {program : List Int} {target : Int} {s : State} {r : SearchResult} (hr : r ≠ .notFound) :
    search program target s = r ↔ ∃ noun verb, noun < 100 ∧ verb < 100 ∧
      stopAt program target s (noun, verb) = some r ∧ ∀ noun' verb', noun' < 100 → verb' < 100 →
        (noun' < noun ∨ noun' = noun ∧ verb' < verb) → stopAt program target s (noun', verb') = none := by
  have hsome : search program target s = r ↔
      (searchGrid 100).findSome? (stopAt program target s) = some r := by
    rw [search, searchPairs_eq]
    cases (searchGrid 100).findSome? (stopAt program target s) <;> simp [hr.symm]
  rw [hsome, findSome?_eq_some_iff_of_pairwise PairLt.asymm (pairwise_searchGrid 100)]
  simp only [Prod.exists, Prod.forall, mem_searchGrid, pairLt_iff, and_assoc, and_imp]

/-- Settles O49: the search stops at the first pair that does not miss (`search_eq_iff`), or at none, and `stopAt` says
with what; a candidate is R152's sequence of operations by definition. -/
theorem searchFindsTheFirstPair : Obligations.SearchFindsTheFirstPair := by
  intro s program target misses missesBefore
  refine ⟨fun n => ?_, ?_, fun e => ?_, fun noun verb => rfl⟩
  · rw [search_eq_iff (by simp)]
    simp only [stopAt_found, stopAt_none, and_assoc, misses, missesBefore]
  · rw [search_eq_notFound]
    simp only [stopAt_none, misses]
  · rw [search_eq_iff (by simp)]
    simp only [stopAt_error, stopAt_none, misses, missesBefore]

end Sys2Proof.Machine
end

section
/-! Fixed tables: cells written out from the encodings (30_encoding.md R62, R63, R66, R67), and the codes of the fault
kinds (60_exceptions.md R120). -/

namespace Sys2Proof.Machine

/-- Settles O1: each clause is one evaluation of the decoder. -/
theorem spelledOutCellsDecode : Obligations.SpelledOutCellsDecode := by
  refine ⟨rfl, rfl, rfl, rfl, rfl, rfl, rfl, rfl, rfl, rfl, ?_, ?_⟩ <;> decide

theorem FaultKind.code_injective : Function.Injective FaultKind.code := by
  intro k k'
  cases k <;> cases k' <;> simp [FaultKind.code]

/-- Settles O26: the codes and the kinds are the definitions' own equations, and no code is given twice. -/
theorem faultKindsAndCodes : Obligations.FaultKindsAndCodes :=
  ⟨⟨rfl, rfl, rfl, rfl, rfl⟩, FaultKind.code_injective, fun _ _ => rfl, fun _ => rfl, fun _ => rfl, fun _ => rfl,
    fun _ => rfl⟩

end Sys2Proof.Machine
end
